-- ==== Sys2Proof/Word.lean ====
section
/-! DEFINITION. The word types of the block and their plainest conversions (00_scope.md R5, R7, R8). -/

namespace Sys2Proof

/-- A byte: a general register, a timer, a memory cell (R5). -/
abbrev Byte := BitVec 8

/-- A 16-bit word: an opcode, `PC`, `I`, a stack entry (R5). -/
abbrev Word := BitVec 16

/-- A 12-bit address field `nnn` (30_encoding.md R71). -/
abbrev Addr := BitVec 12

/-- The index of a general register, V0 to VF (10_state.md R20). -/
abbrev Reg := Fin 16

/-- VF, the register that doubles as the flag (10_state.md R21). -/
def VF : Reg := 15

/-- `wrap8(v) = v mod 256` (R8). -/
def wrap8 (n : Nat) : Byte := BitVec.ofNat 8 n

/-- `wrap16(v) = v mod 65536` (R8). -/
def wrap16 (n : Nat) : Word := BitVec.ofNat 16 n

end Sys2Proof
end

