-- ==== Sys2Proof/Syntax.lean ====
section
/-! DEFINITION. The instruction set: one constructor for each row of opcode_table.json (00_scope.md R2, 30_encoding.md R74).
Fields are named as the spec names them: `x`, `y` registers, `n` a row count, `nn` a byte, `nnn` an address (R71). -/

namespace Sys2Proof

inductive Instr where
  /-- 00E0 `CLS` (R170) -/
  | cls
  /-- 00EE `RET` (R120) -/
  | ret
  /-- 1nnn `JP addr` (R121) -/
  | jp (nnn : Addr)
  /-- 2nnn `CALL addr` (R122) -/
  | call (nnn : Addr)
  /-- 3xnn `SE Vx, byte` (R130) -/
  | seImm (x : Reg) (nn : Byte)
  /-- 4xnn `SNE Vx, byte` (R131) -/
  | sneImm (x : Reg) (nn : Byte)
  /-- 5xy0 `SE Vx, Vy` (R132) -/
  | seReg (x y : Reg)
  /-- 6xnn `LD Vx, byte` (R140) -/
  | ldImm (x : Reg) (nn : Byte)
  /-- 7xnn `ADD Vx, byte` (R141) -/
  | addImm (x : Reg) (nn : Byte)
  /-- 8xy0 `LD Vx, Vy` (R142) -/
  | ldReg (x y : Reg)
  /-- 8xy1 `OR Vx, Vy` (R143) -/
  | orReg (x y : Reg)
  /-- 8xy2 `AND Vx, Vy` (R144) -/
  | andReg (x y : Reg)
  /-- 8xy3 `XOR Vx, Vy` (R145) -/
  | xorReg (x y : Reg)
  /-- 8xy4 `ADD Vx, Vy` (R146) -/
  | addReg (x y : Reg)
  /-- 8xy5 `SUB Vx, Vy` (R147) -/
  | sub (x y : Reg)
  /-- 8xy6 `SHR Vx, Vy` (R148); y is encoded and not read -/
  | shr (x y : Reg)
  /-- 8xy7 `SUBN Vx, Vy` (R149) -/
  | subn (x y : Reg)
  /-- 8xyE `SHL Vx, Vy` (R150); y is encoded and not read -/
  | shl (x y : Reg)
  /-- 9xy0 `SNE Vx, Vy` (R133) -/
  | sneReg (x y : Reg)
  /-- Annn `LD I, addr` (R160) -/
  | ldI (nnn : Addr)
  /-- Bnnn `JP V0, addr` (R123) -/
  | jpV0 (nnn : Addr)
  /-- Cxnn `RND Vx, byte` (R152) -/
  | rnd (x : Reg) (nn : Byte)
  /-- Dxyn `DRW Vx, Vy, nibble` (R171) -/
  | drw (x y : Reg) (n : Fin 16)
  /-- Ex9E `SKP Vx` (R180) -/
  | skp (x : Reg)
  /-- ExA1 `SKNP Vx` (R181) -/
  | sknp (x : Reg)
  /-- Fx07 `LD Vx, DT` (R183) -/
  | ldVDt (x : Reg)
  /-- Fx0A `LD Vx, K` (R182) -/
  | ldK (x : Reg)
  /-- Fx15 `LD DT, Vx` (R184) -/
  | ldDtV (x : Reg)
  /-- Fx18 `LD ST, Vx` (R185) -/
  | ldStV (x : Reg)
  /-- Fx1E `ADD I, Vx` (R161) -/
  | addI (x : Reg)
  /-- Fx29 `LD F, Vx` (R162) -/
  | ldF (x : Reg)
  /-- Fx33 `LD B, Vx` (R163) -/
  | ldB (x : Reg)
  /-- Fx55 `LD [I], Vx` (R164) -/
  | ldMemV (x : Reg)
  /-- Fx65 `LD Vx, [I]` (R165) -/
  | ldVMem (x : Reg)
  /-- any word that matches no other row (30_encoding.md R76, R107) -/
  | unknown (w : Word)
  deriving DecidableEq, Repr

end Sys2Proof
end

