-- ==== Sys2Proof/WellFormed.lean ====
section
/-! DEFINITION. The opcode table's masks and values (opcode_table.json, 30_encoding.md R75), and when an instruction is
well formed. Every field is bounded by its type (R73), so the one check left is on the word of `unknown`. -/

namespace Sys2Proof

/-- One named row of opcode_table.json: a word belongs to it when its bits under `mask` are `value`. -/
structure Row where
  mask : Word
  value : Word
  deriving DecidableEq, Repr

def Row.covers (r : Row) (w : Word) : Bool := w &&& r.mask == r.value

/-- The table's rows of families 0 to 7. -/
def rowsLow : List Row := [
  ⟨0xFFFF, 0x00E0⟩, ⟨0xFFFF, 0x00EE⟩, ⟨0xF000, 0x1000⟩, ⟨0xF000, 0x2000⟩,
  ⟨0xF000, 0x3000⟩, ⟨0xF000, 0x4000⟩, ⟨0xF00F, 0x5000⟩, ⟨0xF000, 0x6000⟩,
  ⟨0xF000, 0x7000⟩]

/-- The table's rows of families 8 and 9. -/
def rowsAlu : List Row := [
  ⟨0xF00F, 0x8000⟩, ⟨0xF00F, 0x8001⟩, ⟨0xF00F, 0x8002⟩, ⟨0xF00F, 0x8003⟩,
  ⟨0xF00F, 0x8004⟩, ⟨0xF00F, 0x8005⟩, ⟨0xF00F, 0x8006⟩, ⟨0xF00F, 0x8007⟩,
  ⟨0xF00F, 0x800E⟩, ⟨0xF00F, 0x9000⟩]

/-- The table's rows of families A to E. -/
def rowsMid : List Row := [
  ⟨0xF000, 0xA000⟩, ⟨0xF000, 0xB000⟩, ⟨0xF000, 0xC000⟩, ⟨0xF000, 0xD000⟩,
  ⟨0xF0FF, 0xE09E⟩, ⟨0xF0FF, 0xE0A1⟩]

/-- The table's rows of family F. -/
def rowsF : List Row := [
  ⟨0xF0FF, 0xF007⟩, ⟨0xF0FF, 0xF00A⟩, ⟨0xF0FF, 0xF015⟩, ⟨0xF0FF, 0xF018⟩,
  ⟨0xF0FF, 0xF01E⟩, ⟨0xF0FF, 0xF029⟩, ⟨0xF0FF, 0xF033⟩, ⟨0xF0FF, 0xF055⟩,
  ⟨0xF0FF, 0xF065⟩]

/-- The 34 named rows of the table, in its order (R2, R74). -/
def opcodeTable : List Row := rowsLow ++ rowsAlu ++ rowsMid ++ rowsF

/-- A word matches some named pattern (R75). -/
def isNamedWord (w : Word) : Bool := opcodeTable.any (fun r => r.covers w)

/-- An instruction is well formed: an `unknown` carries a word no named pattern matches (R76). -/
def Instr.wf : Instr → Bool
  | .unknown w => !isNamedWord w
  | .cls | .ret | .jp _ | .call _ | .seImm _ _ | .sneImm _ _ | .seReg _ _ | .ldImm _ _ | .addImm _ _
  | .ldReg _ _ | .orReg _ _ | .andReg _ _ | .xorReg _ _ | .addReg _ _ | .sub _ _ | .shr _ _ | .subn _ _ | .shl _ _
  | .sneReg _ _ | .ldI _ | .jpV0 _ | .rnd _ _ | .drw _ _ _ | .skp _ | .sknp _ | .ldVDt _ | .ldK _ | .ldDtV _
  | .ldStV _ | .addI _ | .ldF _ | .ldB _ | .ldMemV _ | .ldVMem _ => true

end Sys2Proof
end

