-- ==== Sys2Proof/Decode.lean ====
section
/-! DEFINITION. Decoding bytes to an instruction, total (30_encoding.md R70 to R77), and the encoder, written from the
layouts of R72. The machine never sees a raw field: they are pulled out here. -/

namespace Sys2Proof

/-- The big-endian word of two bytes, the first at the lower address (20_memory.md R53). -/
def wordOfBytes (hi lo : Byte) : Word := BitVec.ofNat 16 (hi.toNat * 0x100 + lo.toNat)

/-- Bits 15:8 of a word, the byte at the lower address. -/
def highByte (w : Word) : Byte := BitVec.ofNat 8 (w.toNat / 0x100)

/-- Bits 7:0 of a word. -/
def lowByte (w : Word) : Byte := BitVec.ofNat 8 w.toNat

/-- `op[15:12]`, the primary family (R71, R74). -/
def fieldFamily (w : Word) : Nat := w.toNat / 0x1000

/-- `x`, bits 11:8 (R71). -/
def fieldX (w : Word) : Reg := ⟨w.toNat / 0x100 % 16, Nat.mod_lt _ (by decide)⟩

/-- `y`, bits 7:4 (R71). -/
def fieldY (w : Word) : Reg := ⟨w.toNat / 0x10 % 16, Nat.mod_lt _ (by decide)⟩

/-- `n`, bits 3:0 (R71). -/
def fieldN (w : Word) : Fin 16 := ⟨w.toNat % 16, Nat.mod_lt _ (by decide)⟩

/-- `nn`, bits 7:0 (R71). -/
def fieldNN (w : Word) : Byte := BitVec.ofNat 8 w.toNat

/-- `nnn`, bits 11:0 (R71). -/
def fieldNNN (w : Word) : Addr := BitVec.ofNat 12 w.toNat

/-- Family 0: only two whole words are named (R74, R75). -/
def decodeFamily0 (w : Word) : Instr :=
  match w.toNat with
  | 0x00E0 => .cls
  | 0x00EE => .ret
  | _ => .unknown w

/-- Family 8: the low nibble selects the register operation (R74). -/
def decodeFamily8 (w : Word) : Instr :=
  match w.toNat % 16 with
  | 0x0 => .ldReg (fieldX w) (fieldY w)
  | 0x1 => .orReg (fieldX w) (fieldY w)
  | 0x2 => .andReg (fieldX w) (fieldY w)
  | 0x3 => .xorReg (fieldX w) (fieldY w)
  | 0x4 => .addReg (fieldX w) (fieldY w)
  | 0x5 => .sub (fieldX w) (fieldY w)
  | 0x6 => .shr (fieldX w) (fieldY w)
  | 0x7 => .subn (fieldX w) (fieldY w)
  | 0xE => .shl (fieldX w) (fieldY w)
  | _ => .unknown w

/-- Family E: the low byte selects (R74). -/
def decodeFamilyE (w : Word) : Instr :=
  match w.toNat % 256 with
  | 0x9E => .skp (fieldX w)
  | 0xA1 => .sknp (fieldX w)
  | _ => .unknown w

/-- Family F: the low byte selects (R74). -/
def decodeFamilyF (w : Word) : Instr :=
  match w.toNat % 256 with
  | 0x07 => .ldVDt (fieldX w)
  | 0x0A => .ldK (fieldX w)
  | 0x15 => .ldDtV (fieldX w)
  | 0x18 => .ldStV (fieldX w)
  | 0x1E => .addI (fieldX w)
  | 0x29 => .ldF (fieldX w)
  | 0x33 => .ldB (fieldX w)
  | 0x55 => .ldMemV (fieldX w)
  | 0x65 => .ldVMem (fieldX w)
  | _ => .unknown w

/-- The instruction of an opcode word: every word has one (R75, R76). -/
def decodeWord (w : Word) : Instr :=
  match fieldFamily w with
  | 0x0 => decodeFamily0 w
  | 0x1 => .jp (fieldNNN w)
  | 0x2 => .call (fieldNNN w)
  | 0x3 => .seImm (fieldX w) (fieldNN w)
  | 0x4 => .sneImm (fieldX w) (fieldNN w)
  | 0x5 => if w.toNat % 16 = 0 then .seReg (fieldX w) (fieldY w) else .unknown w
  | 0x6 => .ldImm (fieldX w) (fieldNN w)
  | 0x7 => .addImm (fieldX w) (fieldNN w)
  | 0x8 => decodeFamily8 w
  | 0x9 => if w.toNat % 16 = 0 then .sneReg (fieldX w) (fieldY w) else .unknown w
  | 0xA => .ldI (fieldNNN w)
  | 0xB => .jpV0 (fieldNNN w)
  | 0xC => .rnd (fieldX w) (fieldNN w)
  | 0xD => .drw (fieldX w) (fieldY w) (fieldN w)
  | 0xE => decodeFamilyE w
  | _ => decodeFamilyF w

/-- Why bytes do not decode. -/
inductive DecodeReject where
  /-- Fewer than the two bytes every instruction has (R70). -/
  | truncated
  deriving DecidableEq, Repr

/-- Decode the instruction at the front of a list of bytes, and give the bytes after it. The only rejection is a list too
short to hold one (R70: any 16-bit value is accepted). -/
def decode : List Byte → Except DecodeReject (Instr × List Byte)
  | hi :: lo :: rest => .ok (decodeWord (wordOfBytes hi lo), rest)
  | _ => .error .truncated

/-- The instruction decoded from a word numbered as opcode_table.json numbers it: 16 bits, high byte stored first. Bits
above `nbits` are zero. -/
def decodeTableWord (nbits w : Nat) : Option Instr :=
  let word : Word := BitVec.ofNat 16 (w % 2 ^ nbits)
  match decode [highByte word, lowByte word] with
  | .ok (i, _) => some i
  | .error _ => none

/-- Layout `F_NNN`: `oooo aaaa aaaa aaaa` (R72). -/
def layoutNNN (o : Nat) (nnn : Addr) : Word := BitVec.ofNat 16 (o * 0x1000 + nnn.toNat)

/-- Layout `F_XNN`: `oooo xxxx kkkk kkkk` (R72). -/
def layoutXNN (o : Nat) (x : Reg) (nn : Byte) : Word := BitVec.ofNat 16 (o * 0x1000 + x.val * 0x100 + nn.toNat)

/-- Layouts `F_XYF` and `F_XYN`: `oooo xxxx yyyy ffff` (R72). -/
def layoutXYN (o : Nat) (x y : Reg) (f : Nat) : Word :=
  BitVec.ofNat 16 (o * 0x1000 + x.val * 0x100 + y.val * 0x10 + f)

/-- Layout `F_XFF`: `oooo xxxx ffff ffff` (R72). -/
def layoutXFF (o : Nat) (x : Reg) (f : Nat) : Word := BitVec.ofNat 16 (o * 0x1000 + x.val * 0x100 + f)

/-- The word of an instruction (R72, R74). The unread `y` of 8xy6 and 8xyE is encoded too. -/
def encode : Instr → Word
  | .cls => 0x00E0
  | .ret => 0x00EE
  | .jp nnn => layoutNNN 0x1 nnn
  | .call nnn => layoutNNN 0x2 nnn
  | .seImm x nn => layoutXNN 0x3 x nn
  | .sneImm x nn => layoutXNN 0x4 x nn
  | .seReg x y => layoutXYN 0x5 x y 0x0
  | .ldImm x nn => layoutXNN 0x6 x nn
  | .addImm x nn => layoutXNN 0x7 x nn
  | .ldReg x y => layoutXYN 0x8 x y 0x0
  | .orReg x y => layoutXYN 0x8 x y 0x1
  | .andReg x y => layoutXYN 0x8 x y 0x2
  | .xorReg x y => layoutXYN 0x8 x y 0x3
  | .addReg x y => layoutXYN 0x8 x y 0x4
  | .sub x y => layoutXYN 0x8 x y 0x5
  | .shr x y => layoutXYN 0x8 x y 0x6
  | .subn x y => layoutXYN 0x8 x y 0x7
  | .shl x y => layoutXYN 0x8 x y 0xE
  | .sneReg x y => layoutXYN 0x9 x y 0x0
  | .ldI nnn => layoutNNN 0xA nnn
  | .jpV0 nnn => layoutNNN 0xB nnn
  | .rnd x nn => layoutXNN 0xC x nn
  | .drw x y n => layoutXYN 0xD x y n.val
  | .skp x => layoutXFF 0xE x 0x9E
  | .sknp x => layoutXFF 0xE x 0xA1
  | .ldVDt x => layoutXFF 0xF x 0x07
  | .ldK x => layoutXFF 0xF x 0x0A
  | .ldDtV x => layoutXFF 0xF x 0x15
  | .ldStV x => layoutXFF 0xF x 0x18
  | .addI x => layoutXFF 0xF x 0x1E
  | .ldF x => layoutXFF 0xF x 0x29
  | .ldB x => layoutXFF 0xF x 0x33
  | .ldMemV x => layoutXFF 0xF x 0x55
  | .ldVMem x => layoutXFF 0xF x 0x65
  | .unknown w => w

/-- The two bytes of an instruction as they lie in memory (20_memory.md R53). -/
def encodeBytes (i : Instr) : List Byte := [highByte (encode i), lowByte (encode i)]

end Sys2Proof
end

