-- ==== Sys2Proof/Config.lean ====
section
/-! DEFINITION. What an implementation fixes: the four configuration parameters of 00_scope.md R6, and the free value
that stands for a random byte the host's choice leaves open (40_step_engine.md R109). -/

namespace Sys2Proof

/-- `P_OOB`: what an out-of-range memory address or key index does (R6, 20_memory.md R50, R51). -/
inductive OobMode where
  | fault
  | wrap
  deriving DecidableEq, Repr

/-- `P_SHIFT_FLAG`: the VF value of 8xy6 and 8xyE (R6, 43_alu.md R148, R150). -/
inductive ShiftFlag where
  | nibble
  | bit
  deriving DecidableEq, Repr

/-- `P_FLAG_ORDER`: the order of the VF write and the Vx write (R6, 43_alu.md R153). -/
inductive FlagOrder where
  | asWritten
  | flagLast
  deriving DecidableEq, Repr

/-- The configuration parameters of R6, fixed when the block is built (10_state.md R39). -/
structure Params where
  oob : OobMode
  shiftFlag : ShiftFlag
  flagOrder : FlagOrder
  font : Vector Byte 80
  deriving DecidableEq, Repr

/-- The default `FONT`, glyphs 0 to F, five bytes each (10_state.md R41). PRESUMED: the spec takes the bytes from general
knowledge (D18, G1); log 3. -/
def Config.defaultFont : Vector Byte 80 := #v[
  0xF0, 0x90, 0x90, 0x90, 0xF0,
  0x20, 0x60, 0x20, 0x20, 0x70,
  0xF0, 0x10, 0xF0, 0x80, 0xF0,
  0xF0, 0x10, 0xF0, 0x10, 0xF0,
  0x90, 0x90, 0xF0, 0x10, 0x10,
  0xF0, 0x80, 0xF0, 0x10, 0xF0,
  0xF0, 0x80, 0xF0, 0x90, 0xF0,
  0xF0, 0x10, 0x20, 0x40, 0x40,
  0xF0, 0x90, 0xF0, 0x90, 0xF0,
  0xF0, 0x90, 0xF0, 0x10, 0xF0,
  0xF0, 0x90, 0xF0, 0x90, 0x90,
  0xE0, 0x90, 0xE0, 0x90, 0xE0,
  0xF0, 0x80, 0x80, 0x80, 0xF0,
  0xE0, 0x90, 0x90, 0x90, 0xE0,
  0xF0, 0x80, 0xF0, 0x80, 0xF0,
  0xF0, 0x80, 0xF0, 0x80, 0x80]

/-- The defaults of R6's table. -/
def Params.default : Params :=
  { oob := .fault, shiftFlag := .nibble, flagOrder := .asWritten, font := Config.defaultFont }

/-- The random byte of a step for which the host's choice is open: a free value, one for each draw (R109, D11, U8).
Nothing can be proved of it. Log 2. -/
opaque Config.freeRnd : Nat → Byte

end Sys2Proof
end

