-- ==== Sys2Proof/Machine/State.lean ====
section
/-! DEFINITION. The state of the block (10_state.md R20 to R43), the reasons a step can stop, and the state after INIT
(R40, 70_reset_and_hazards.md R230). -/

namespace Sys2Proof.Machine

/-- `FAULT.kind` (R37, 60_exceptions.md R200). Code 7 is never written and has no constructor. -/
inductive FaultKind where
  | none
  | fetch
  | read
  | write
  | key
  | stackOverflow
  | stackUnderflow
  deriving DecidableEq, Repr

/-- The fault latch `FAULT` (R37). -/
structure FaultLatch where
  kind : FaultKind
  value : Word
  pc : Word
  deriving DecidableEq, Repr

/-- The latch with no fault in it (R40). -/
def FaultLatch.clear : FaultLatch := { kind := .none, value := 0, pc := 0 }

/-- Reasons the machine stops with a fault: there is none, and that is safe. The spec's one exception, `OutOfRange`, is
entered as R104 and R202 describe, which is a next state with the latch written (log 4). -/
inductive Fault
  deriving DecidableEq, Repr

/-- Reasons a request is turned away. -/
inductive Refusal where
  /-- An instruction without a meaning, by its mnemonic. No arm of `exec` answers it: every row has its meaning. Safe. -/
  | notModelled (mnemonic : String)
  /-- A host operation other than INIT before the first INIT (60_exceptions.md R220, R233). Answered by the host
  operation of Machine/HostOps.lean, never by a step. Safe: no State exists then. -/
  | beforeInit
  deriving DecidableEq, Repr

/-- The architectural state (R42), and after it the model's own fields: the fixed parameters (log 1) and the RND input
(log 2). Bit `k` of `fb` is the cell `FB[k]` (R31); log 7. -/
structure State where
  /-- `V[0..15]` (R20) -/
  v : Vector Byte 16
  /-- `PC` (R23) -/
  pc : Word
  /-- `I` (R25) -/
  i : Word
  /-- `STACK[0..15]` (R26) -/
  stack : Vector Word 16
  /-- `SP`, 0 to 16 (R27) -/
  sp : Fin 17
  /-- `DT` (R28) -/
  dt : Byte
  /-- `ST` (R29) -/
  st : Byte
  /-- `FB[0..2047]` (R31) -/
  fb : BitVec 2048
  /-- `KEY[0..15]` (R33) -/
  key : Vector Bool 16
  /-- `MEM[0..4095]`: the cells that differ from their INIT contents, addresses rising (R35; log 8) -/
  mem : List Host.Cell
  /-- `REDRAW` (R36) -/
  redraw : Bool
  /-- `FAULT` (R37) -/
  fault : FaultLatch
  /-- the parameters of 00_scope.md R6 (model's own; log 1) -/
  params : Params
  /-- RND bytes the host supplies for the coming steps, oldest first (model's own; log 2) -/
  rndIn : List Byte
  /-- how many random bytes have been drawn (model's own; log 2) -/
  rndDraw : Nat
  deriving DecidableEq, Repr

/-- The state INIT leaves in a block built with the parameters `p` (R40). -/
def State.init (p : Params) : State :=
  { v := Vector.replicate 16 0
    pc := 0x200
    i := 0
    stack := Vector.replicate 16 0
    sp := 0
    dt := 0
    st := 0
    fb := 0
    key := Vector.replicate 16 false
    mem := []
    redraw := false
    fault := FaultLatch.clear
    params := p
    rndIn := []
    rndDraw := 0 }

/-- The block right after INIT, with the default parameters of R6. -/
def State.reset : State := State.init Params.default

end Sys2Proof.Machine
end

