-- ==== Sys2Proof/Machine/Memory.lean ====
section
/-! DEFINITION. The memory array `MEM[0..4095]` as a list of cells in one canonical form (10_state.md R35, R40; log 8). -/

namespace Sys2Proof.Machine

/-- What an unlisted address reads as: the contents INIT gives it, `FONT` and then zeros (R40, R41). -/
def Memory.blank (font : Vector Byte 80) (a : Nat) : Byte := if h : a < 80 then font[a] else 0

/-- The byte at address `a`. -/
def Memory.read (font : Vector Byte 80) : List Host.Cell → Nat → Byte
  | [], a => Memory.blank font a
  | c :: rest, a => if c.1 = a then c.2 else Memory.read font rest a

/-- Drop what is listed for address `a`. -/
def Memory.erase (m : List Host.Cell) (a : Nat) : List Host.Cell := m.filter (fun c => c.1 != a)

/-- List the byte `b` at address `a`, in its place. -/
def Memory.insert : List Host.Cell → Nat → Byte → List Host.Cell
  | [], a, b => [(a, b)]
  | c :: rest, a, b =>
    if c.1 < a then c :: Memory.insert rest a b
    else if c.1 = a then (a, b) :: rest
    else (a, b) :: c :: rest

/-- Store `b` at `a`. Storing what an unlisted address reads as removes the entry. -/
def Memory.write (font : Vector Byte 80) (m : List Host.Cell) (a : Nat) (b : Byte) : List Host.Cell :=
  if b = Memory.blank font a then Memory.erase m a else Memory.insert m a b

/-- The canonical form: addresses strictly rising and below 4096 (R5), no entry equal to what it would read as unlisted. -/
abbrev Memory.wf (font : Vector Byte 80) (m : List Host.Cell) : Prop :=
  m.Pairwise (fun c d => c.1 < d.1) ∧ ∀ c ∈ m, c.1 < 0x1000 ∧ c.2 ≠ Memory.blank font c.1

end Sys2Proof.Machine
end

