-- ==== Sys2Proof/Machine/Ops.lean ====
section
/-! DEFINITION. The shared operations over registers, memory, stack and timers, and taking a fault. Machine's steps are built
from these alone. -/

namespace Sys2Proof.Machine

/-- `raise OutOfRange(kind, value)` (60_exceptions.md R200). The value is the exact address, key value or SP. -/
structure OutOfRange where
  kind : FaultKind
  value : Nat
  deriving DecidableEq, Repr

/-! ### Registers and the program counter -/

/-- `V[x]` (10_state.md R20). -/
def State.reg (s : State) (x : Reg) : Byte := s.v[x.val]

/-- `V[x] <- b` (R20). -/
def State.setReg (s : State) (x : Reg) (b : Byte) : State := { s with v := s.v.set x.val b }

/-- `V[k], V[k+1], … <- bytes`, ascending. -/
def State.setRegs : List Byte → Nat → State → State
  | [], _, s => s
  | b :: bs, k, s => State.setRegs bs (k + 1) (s.setReg (Fin.ofNat 16 k) b)

/-- `PC <- w`. -/
def State.jumpTo (s : State) (w : Word) : State := { s with pc := w }

/-- `PC <- wrap16(PC + 2)` (R24). -/
def State.advance (s : State) : State := s.jumpTo (wrap16 (s.pc.toNat + 2))

/-- `PC <- wrap16(PC + (skip ? 4 : 2))` (R24, 42_skips.md). -/
def State.skipIf (s : State) (skip : Bool) : State := s.jumpTo (wrap16 (s.pc.toNat + if skip then 4 else 2))

/-! ### Memory -/

/-- The byte stored at `a`. -/
def State.readByte (s : State) (a : Nat) : Byte := Memory.read s.params.font s.mem a

/-- Store the byte `b` at `a`. -/
def State.writeByte (s : State) (a : Nat) (b : Byte) : State :=
  { s with mem := Memory.write s.params.font s.mem a b }

/-- `EA(a, kind)` (20_memory.md R50). The address is an exact integer (R52). -/
def State.effAddr (s : State) (kind : FaultKind) (a : Nat) : Except OutOfRange Nat :=
  if a ≤ 0xFFF then .ok a
  else
    match s.params.oob with
    | .wrap => .ok (a % 0x1000)
    | .fault => .error { kind := kind, value := a }

/-- `MemRead(a, 1)`, and `Fetch(a)` when `kind` is `fetch` (R50). -/
def State.memRead (s : State) (kind : FaultKind) (a : Nat) : Except OutOfRange Byte :=
  match s.effAddr kind a with
  | .ok e => .ok (s.readByte e)
  | .error r => .error r

/-- `MemWrite(a, 1, b)` (R50). -/
def State.memWrite (s : State) (a : Nat) (b : Byte) : Except OutOfRange State :=
  match s.effAddr .write a with
  | .ok e => .ok (s.writeByte e b)
  | .error r => .error r

/-- Read `count` bytes from `a` on, ascending; the first offending access is the one reported (R55, R203). -/
def State.readBytes (s : State) : Nat → Nat → Except OutOfRange (List Byte)
  | _, 0 => .ok []
  | a, count + 1 =>
    match s.memRead .read a with
    | .error r => .error r
    | .ok b =>
      match State.readBytes s (a + 1) count with
      | .error r => .error r
      | .ok bs => .ok (b :: bs)

/-- Write bytes from `a` on, ascending; the first offending access is the one reported (R55, R203). -/
def State.writeBytes : List Byte → Nat → State → Except OutOfRange State
  | [], _, s => .ok s
  | b :: bs, a, s =>
    match s.memWrite a b with
    | .error r => .error r
    | .ok t => State.writeBytes bs (a + 1) t

/-- `op <- Fetch(PC) : Fetch(PC + 1)` (40_step_engine.md R102, 20_memory.md R53). -/
def State.fetch (s : State) : Except OutOfRange Word :=
  match s.memRead .fetch s.pc.toNat with
  | .error r => .error r
  | .ok hi =>
    match s.memRead .fetch (s.pc.toNat + 1) with
    | .error r => .error r
    | .ok lo => .ok (wordOfBytes hi lo)

/-! ### The return stack -/

/-- Push `PC`: write `STACK[SP]`, then increment `SP` (10_state.md R27, 41_control_flow.md R122). -/
def State.push (s : State) : Except OutOfRange State :=
  if h : s.sp.val < 16 then
    .ok { s with stack := s.stack.set s.sp.val s.pc h, sp := ⟨s.sp.val + 1, by omega⟩ }
  else .error { kind := .stackOverflow, value := 16 }

/-- Pop: decrement `SP`, then read `STACK[SP]`; the entry is left as it is (R27, R120). -/
def State.pop (s : State) : Except OutOfRange (Word × State) :=
  if h : s.sp.val = 0 then .error { kind := .stackUnderflow, value := 0 }
  else .ok (s.stack[s.sp.val - 1], { s with sp := ⟨s.sp.val - 1, by omega⟩ })

/-! ### The keypad -/

/-- `KEY[k]` (R33). -/
def State.keyAt (s : State) (k : Fin 16) : Bool := s.key[k.val]

/-- `KEY[k] <- b`. -/
def State.setKeyCell (s : State) (k : Fin 16) (b : Bool) : State := { s with key := s.key.set k.val b }

/-- The smallest `k` with `KEY[k] = 1` (46_keypad_timers.md R182, D8). -/
def State.lowestKey (s : State) : Option (Fin 16) := (List.finRange 16).find? (fun k => s.keyAt k)

/-! ### The random byte -/

/-- `RND` of this step: what the host supplied for it, else a free value (40_step_engine.md R109; log 2). -/
def State.rnd (s : State) : Byte :=
  match s.rndIn with
  | b :: _ => b
  | [] => Config.freeRnd s.rndDraw

/-- The step has used its random byte; the next step has another (log 2). -/
def State.nextRnd (s : State) : State := { s with rndIn := s.rndIn.tail, rndDraw := s.rndDraw + 1 }

/-! ### Taking a fault, and the end of a step -/

/-- A fault is latched: the block is halted (40_step_engine.md R101). -/
def State.halted (s : State) : Bool := s.fault.kind != .none

/-- Taking the fault `r` in the step that began in `s`: every write of the step is discarded, the latch holds the kind,
the value and the instruction's address, and the block is halted (R104, 60_exceptions.md R202). Nothing returns from a
fault (R207): INIT is the only way out. -/
def State.takeFault (s : State) (r : OutOfRange) : State :=
  { s with fault := { kind := r.kind, value := wrap16 r.value, pc := s.pc } }

/-- How `Execute` ends for the instruction that began in `s`: its writes together (R105), or the fault (R104). -/
def complete (s : State) : Except OutOfRange State → Host.Outcome State Fault Refusal
  | .ok t => .next t
  | .error r => .next (s.takeFault r)

/-- One timer down by 1, floored at 0 (R106). -/
def tickDown (t : Byte) : Byte := if t.toNat > 0 then BitVec.ofNat 8 (t.toNat - 1) else 0

/-- The tick of both timers (R106). -/
def State.tick (s : State) : State := { s with dt := tickDown s.dt, st := tickDown s.st }

/-- What follows `Execute` in a step: the tick, unless the instruction faulted (R104, R105, R106). -/
def State.endStep (t : State) : State := if t.halted then t else t.tick.nextRnd

/-- The end of a step, on the outcome of `Execute`. -/
def finishStep : Host.Outcome State Fault Refusal → Host.Outcome State Fault Refusal
  | .next t => .next t.endStep
  | .fault r => .fault r
  | .refused r => .refused r

/-! ### Placing an instruction for the next step -/

/-- The next step fetches: no fault is latched and both bytes at `PC` can be addressed. -/
def State.canFetch (s : State) : Bool := !s.halted && (s.params.oob == .wrap || s.pc.toNat + 1 ≤ 0xFFF)

/-- `s` made ready to fetch: unchanged when it can fetch; else the latch is cleared and `PC` is 0x200, as INIT leaves them. -/
def State.readyToFetch (s : State) : State :=
  if s.canFetch then s else { s with fault := FaultLatch.clear, pc := 0x200 }

/-- Store an instruction word, high byte first, where the next step fetches it (20_memory.md R53). -/
def State.placeWord (s : State) (w : Word) : State :=
  let t := s.readyToFetch
  (t.writeByte (t.pc.toNat % 0x1000) (highByte w)).writeByte ((t.pc.toNat + 1) % 0x1000) (lowByte w)

end Sys2Proof.Machine
end

