-- ==== Sys2Proof/Machine/Flags.lean ====
section
/-! DEFINITION. The flag values VF receives (10_state.md R38), and the order of the VF write and the Vx write (43_alu.md
R153). -/

namespace Sys2Proof.Machine

/-- A flag as the byte VF holds. -/
def flagByte (b : Bool) : Byte := if b then 1 else 0

/-- 8xy4: 1 when the exact sum is above 255 (R146). -/
def carryFlag (a b : Byte) : Byte := flagByte (decide (a.toNat + b.toNat > 255))

/-- 8xy5: 1 when a borrow happened, `a < b` (R147). -/
def borrowFlag (a b : Byte) : Byte := flagByte (decide (a.toNat < b.toNat))

/-- 8xy7: 0 when `a > b`, else 1 (R149). -/
def notBorrowFlag (a b : Byte) : Byte := flagByte (!decide (a.toNat > b.toNat))

/-- 8xy6: `sf(a)`, the low nibble or bit 0 (R148). -/
def shrFlag (mode : ShiftFlag) (a : Byte) : Byte :=
  match mode with
  | .nibble => a &&& 0x0F
  | .bit => a &&& 0x01

/-- 8xyE: `lf(a)`, `(a & 0xF0) >> 1` or bit 7 (R150). -/
def shlFlag (mode : ShiftFlag) (a : Byte) : Byte :=
  match mode with
  | .nibble => (a &&& 0xF0) >>> 1
  | .bit => a >>> 7

/-- The difference modulo 256 (R151). -/
def subWrap (a b : Byte) : Byte := wrap8 (256 + a.toNat - b.toNat)

/-- Write VF and Vx in the order `P_FLAG_ORDER` names (R153): flag first, the result computed from the registers as they
stand then; or operands first, Vx, and VF last. Both functions take the values of Vx and Vy. -/
def State.flagAndResult (s : State) (x y : Reg) (flag result : Byte → Byte → Byte) : State :=
  match s.params.flagOrder with
  | .asWritten =>
    let t := s.setReg VF (flag (s.reg x) (s.reg y))
    t.setReg x (result (t.reg x) (t.reg y))
  | .flagLast => (s.setReg x (result (s.reg x) (s.reg y))).setReg VF (flag (s.reg x) (s.reg y))

end Sys2Proof.Machine
end

