-- ==== Sys2Proof/Machine/Operands.lean ====
section
/-! DEFINITION. Operand forms: the address immediate, the byte lists of the register transfers, the data address `I + k`
(44_index_memory.md R166), and the key index (20_memory.md R51). Registers are read with `State.reg`, the byte
immediate `nn` is used as it stands (30_encoding.md R73). -/

namespace Sys2Proof.Machine

/-- `zext_16(nnn)` (30_encoding.md R73). -/
def addrImm (nnn : Addr) : Word := BitVec.ofNat 16 nnn.toNat

/-- The exact data address `I + k`, before `EA` (R166, 20_memory.md R52). -/
def State.dataAddr (s : State) (k : Nat) : Nat := s.i.toNat + k

/-- `KeyIndex(v)` (R51). -/
def State.keyIndex (s : State) (b : Byte) : Except OutOfRange (Fin 16) :=
  if h : b.toNat ≤ 0xF then .ok ⟨b.toNat, by omega⟩
  else
    match s.params.oob with
    | .wrap => .ok ⟨b.toNat % 16, Nat.mod_lt _ (by decide)⟩
    | .fault => .error { kind := .key, value := b.toNat }

/-- V0 to Vx, inclusive (44_index_memory.md R164). -/
def State.regsUpTo (s : State) (x : Reg) : List Byte := ((List.finRange 16).take (x.val + 1)).map s.reg

/-- The decimal digits of a byte: hundreds, tens, ones (R163, D13). -/
def bcdDigits (b : Byte) : List Byte :=
  [wrap8 (b.toNat / 100), wrap8 (b.toNat / 10 % 10), wrap8 (b.toNat % 10)]

end Sys2Proof.Machine
end

