-- ==== Sys2Proof/Machine/Alu.lean ====
section
/-! DEFINITION. Register loads, logic, arithmetic and the random byte (43_alu.md). `PC` is written last. -/

namespace Sys2Proof.Machine

/-- 6xnn (R140). -/
def execLdImm (x : Reg) (nn : Byte) (s : State) : Host.Outcome State Fault Refusal :=
  .next (s.setReg x nn).advance

/-- 7xnn (R141): no flag. -/
def execAddImm (x : Reg) (nn : Byte) (s : State) : Host.Outcome State Fault Refusal :=
  .next (s.setReg x (wrap8 ((s.reg x).toNat + nn.toNat))).advance

/-- 8xy0 (R142). -/
def execLdReg (x y : Reg) (s : State) : Host.Outcome State Fault Refusal :=
  .next (s.setReg x (s.reg y)).advance

/-- 8xy1 (R143): VF is left alone. -/
def execOr (x y : Reg) (s : State) : Host.Outcome State Fault Refusal :=
  .next (s.setReg x (s.reg x ||| s.reg y)).advance

/-- 8xy2 (R144): VF is left alone. -/
def execAnd (x y : Reg) (s : State) : Host.Outcome State Fault Refusal :=
  .next (s.setReg x (s.reg x &&& s.reg y)).advance

/-- 8xy3 (R145): VF is left alone. -/
def execXor (x y : Reg) (s : State) : Host.Outcome State Fault Refusal :=
  .next (s.setReg x (s.reg x ^^^ s.reg y)).advance

/-- 8xy4 (R146): the sum first, then VF, under both settings of `P_FLAG_ORDER`. -/
def execAddReg (x y : Reg) (s : State) : Host.Outcome State Fault Refusal :=
  .next ((s.setReg x (wrap8 ((s.reg x).toNat + (s.reg y).toNat))).setReg VF (carryFlag (s.reg x) (s.reg y))).advance

/-- 8xy5 (R147). -/
def execSub (x y : Reg) (s : State) : Host.Outcome State Fault Refusal :=
  .next (s.flagAndResult x y borrowFlag subWrap).advance

/-- 8xy6 (R148): Vy is not read. -/
def execShr (x y : Reg) (s : State) : Host.Outcome State Fault Refusal :=
  .next (s.flagAndResult x y (fun a _ => shrFlag s.params.shiftFlag a) (fun a _ => a >>> 1)).advance

/-- 8xy7 (R149). -/
def execSubn (x y : Reg) (s : State) : Host.Outcome State Fault Refusal :=
  .next (s.flagAndResult x y notBorrowFlag (fun a b => subWrap b a)).advance

/-- 8xyE (R150): Vy is not read. -/
def execShl (x y : Reg) (s : State) : Host.Outcome State Fault Refusal :=
  .next (s.flagAndResult x y (fun a _ => shlFlag s.params.shiftFlag a) (fun a _ => a <<< 1)).advance

/-- Cxnn (R152). -/
def execRnd (x : Reg) (nn : Byte) (s : State) : Host.Outcome State Fault Refusal :=
  .next (s.setReg x (s.rnd &&& nn)).advance

end Sys2Proof.Machine
end

