-- ==== Sys2Proof/Machine/Control.lean ====
section
/-! DEFINITION. Control transfer (41_control_flow.md), the register skips (42_skips.md), and the unknown word
(40_step_engine.md R107). -/

namespace Sys2Proof.Machine

/-- 00EE (R120). -/
def execRet (s : State) : Host.Outcome State Fault Refusal :=
  complete s <|
    match s.pop with
    | .error r => .error r
    | .ok (w, t) => .ok (t.jumpTo (wrap16 (w.toNat + 2)))

/-- 1nnn (R121). -/
def execJp (nnn : Addr) (s : State) : Host.Outcome State Fault Refusal := .next (s.jumpTo (addrImm nnn))

/-- 2nnn (R122): the pushed value is the call's own address. -/
def execCall (nnn : Addr) (s : State) : Host.Outcome State Fault Refusal :=
  complete s <|
    match s.push with
    | .error r => .error r
    | .ok t => .ok (t.jumpTo (addrImm nnn))

/-- Bnnn (R123): the base is always V0, and the sum is not masked. -/
def execJpV0 (nnn : Addr) (s : State) : Host.Outcome State Fault Refusal :=
  .next (s.jumpTo (wrap16 ((s.reg 0).toNat + nnn.toNat)))

/-- 3xnn (R130). -/
def execSeImm (x : Reg) (nn : Byte) (s : State) : Host.Outcome State Fault Refusal :=
  .next (s.skipIf (s.reg x == nn))

/-- 4xnn (R131). -/
def execSneImm (x : Reg) (nn : Byte) (s : State) : Host.Outcome State Fault Refusal :=
  .next (s.skipIf (s.reg x != nn))

/-- 5xy0 (R132). -/
def execSeReg (x y : Reg) (s : State) : Host.Outcome State Fault Refusal :=
  .next (s.skipIf (s.reg x == s.reg y))

/-- 9xy0 (R133). -/
def execSneReg (x y : Reg) (s : State) : Host.Outcome State Fault Refusal :=
  .next (s.skipIf (s.reg x != s.reg y))

/-- Any other word: a no-op of two bytes, whatever the word (R107, 30_encoding.md R77). -/
def execUnknown (_w : Word) (s : State) : Host.Outcome State Fault Refusal := .next s.advance

end Sys2Proof.Machine
end

