-- ==== Sys2Proof/Machine/Display.lean ====
section
/-! DEFINITION. The display instructions (45_display.md): clear, and the XOR sprite blit with wrap-around and collision
detection. -/

namespace Sys2Proof.Machine

/-- `FB[k]` (10_state.md R31). -/
def State.pixel (s : State) (k : Nat) : Bool := s.fb.getLsbD k

/-- What the blit carries: the framebuffer, and whether a set pixel has been turned off. -/
structure Canvas where
  fb : BitVec 2048
  hit : Bool
  deriving DecidableEq, Repr

/-- The framebuffer index of a sprite pixel, wrapping on both axes (R172). -/
def pixelIndex (cx cy row col : Nat) : Nat := (cy + row) % 32 * 64 + (cx + col) % 64

/-- `if FB[k] = 1 then V[F] <- 1; FB[k] <- FB[k] ^ 1` (R171). -/
def Canvas.flip (c : Canvas) (k : Nat) : Canvas :=
  { fb := c.fb ^^^ BitVec.twoPow 2048 k, hit := c.hit || c.fb.getLsbD k }

/-- One sprite row: eight columns, the most significant bit first (R171). -/
def Canvas.drawRow (cx cy row : Nat) (b : Byte) (c : Canvas) : Canvas :=
  (List.range 8).foldl (fun c col => if b.getLsbD (7 - col) then c.flip (pixelIndex cx cy row col) else c) c

/-- The sprite's rows, from row `row` on. -/
def Canvas.drawRows (cx cy : Nat) : Nat → List Byte → Canvas → Canvas
  | _, [], c => c
  | row, b :: bs, c => Canvas.drawRows cx cy (row + 1) bs (c.drawRow cx cy row b)

/-- 00E0 (R170): `REDRAW` and VF are left alone. -/
def execCls (s : State) : Host.Outcome State Fault Refusal := .next { s with fb := 0 }.advance

/-- Dxyn (R171): the coordinates and `I` are read before VF is written (D10). -/
def execDrw (x y : Reg) (n : Fin 16) (s : State) : Host.Outcome State Fault Refusal :=
  complete s <|
    match s.readBytes (s.dataAddr 0) n.val with
    | .error r => .error r
    | .ok rows =>
      let c := Canvas.drawRows (s.reg x).toNat (s.reg y).toNat 0 rows { fb := s.fb, hit := false }
      .ok { s.setReg VF (flagByte c.hit) with fb := c.fb, redraw := true }.advance

end Sys2Proof.Machine
end

