-- ==== Sys2Proof/Machine/Index.lean ====
section
/-! DEFINITION. The index register and the memory transfers (44_index_memory.md). No access changes `I` (R166). -/

namespace Sys2Proof.Machine

/-- `I <- w`. -/
def State.setIndex (s : State) (w : Word) : State := { s with i := w }

/-- Annn (R160). -/
def execLdI (nnn : Addr) (s : State) : Host.Outcome State Fault Refusal :=
  .next (s.setIndex (addrImm nnn)).advance

/-- Fx1E (R161): no flag. -/
def execAddI (x : Reg) (s : State) : Host.Outcome State Fault Refusal :=
  .next (s.setIndex (wrap16 (s.i.toNat + (s.reg x).toNat))).advance

/-- Fx29 (R162): Vx is not masked to a digit. -/
def execLdF (x : Reg) (s : State) : Host.Outcome State Fault Refusal :=
  .next (s.setIndex (wrap16 ((s.reg x).toNat * 5))).advance

/-- Store bytes from `I` on and go on (R163, R164). -/
def State.storeAtIndex (s : State) (bytes : List Byte) : Except OutOfRange State :=
  match State.writeBytes bytes (s.dataAddr 0) s with
  | .error r => .error r
  | .ok t => .ok t.advance

/-- Fx33 (R163). -/
def execLdB (x : Reg) (s : State) : Host.Outcome State Fault Refusal :=
  complete s (s.storeAtIndex (bcdDigits (s.reg x)))

/-- Fx55 (R164). -/
def execLdMemV (x : Reg) (s : State) : Host.Outcome State Fault Refusal :=
  complete s (s.storeAtIndex (s.regsUpTo x))

/-- Fx65 (R165). -/
def execLdVMem (x : Reg) (s : State) : Host.Outcome State Fault Refusal :=
  complete s <|
    match s.readBytes (s.dataAddr 0) (x.val + 1) with
    | .error r => .error r
    | .ok bytes => .ok (State.setRegs bytes 0 s).advance

end Sys2Proof.Machine
end

