-- ==== Sys2Proof/Machine/Keypad.lean ====
section
/-! DEFINITION. The keypad instructions: Ex9E holds, ExA1 and Fx0A consume (46_keypad_timers.md R180 to R182, R186). -/

namespace Sys2Proof.Machine

/-- Ex9E (R180): the cell is not changed. -/
def execSkp (x : Reg) (s : State) : Host.Outcome State Fault Refusal :=
  complete s <|
    match s.keyIndex (s.reg x) with
    | .error r => .error r
    | .ok k => .ok (s.skipIf (s.keyAt k))

/-- ExA1 (R181): a pressed key is consumed and nothing is skipped. -/
def execSknp (x : Reg) (s : State) : Host.Outcome State Fault Refusal :=
  complete s <|
    match s.keyIndex (s.reg x) with
    | .error r => .error r
    | .ok k => .ok (if s.keyAt k then (s.setKeyCell k false).advance else s.skipIf true)

/-- Fx0A (R182): takes the smallest pending key; with none pending nothing changes, and the next step runs it again. -/
def execLdK (x : Reg) (s : State) : Host.Outcome State Fault Refusal :=
  match s.lowestKey with
  | some k => .next ((s.setReg x (wrap8 k.val)).setKeyCell k false).advance
  | none => .next s

end Sys2Proof.Machine
end

