-- ==== Sys2Proof/Machine/Timers.lean ====
section
/-! DEFINITION. The timer instructions (46_keypad_timers.md R183 to R185). The tick of the same step follows them. -/

namespace Sys2Proof.Machine

/-- Fx07 (R183): the value before this step's tick. -/
def execLdVDt (x : Reg) (s : State) : Host.Outcome State Fault Refusal := .next (s.setReg x s.dt).advance

/-- Fx15 (R184). -/
def execLdDtV (x : Reg) (s : State) : Host.Outcome State Fault Refusal := .next { s with dt := s.reg x }.advance

/-- Fx18 (R185). -/
def execLdStV (x : Reg) (s : State) : Host.Outcome State Fault Refusal := .next { s with st := s.reg x }.advance

end Sys2Proof.Machine
end

