-- ==== Sys2Proof/Machine/Step.lean ====
section
/-! DEFINITION. One STEP of the block (40_step_engine.md R100), and how an instruction is placed for the next step. -/

namespace Sys2Proof.Machine

/-- STEP (R100): nothing while halted (R101); else fetch, `Execute`, tick; a fault in the fetch aborts too (R104). -/
def step (s : State) : Host.Outcome State Fault Refusal :=
  if s.halted then .next s
  else
    match s.fetch with
    | .error r => .next (s.takeFault r)
    | .ok w => finishStep (exec (decodeWord w) s)

/-- `s` with an instruction word, numbered as opcode_table.json numbers it, stored where `step` fetches next (log 9). -/
def State.withFetchWord (s : State) (nbits w : Nat) : State := s.placeWord (BitVec.ofNat 16 (w % 2 ^ nbits))

end Sys2Proof.Machine
end

