-- ==== Sys2Proof/Machine/HostOps.lean ====
section
/-! DEFINITION. The host's operations on the block (60_exceptions.md R220 to R227, 70_reset_and_hazards.md R230 to R235),
each atomic and between steps, and the ends of a run (R235). -/

namespace Sys2Proof.Machine

/-- The operations of R220's table. The key index is 4 bits wide (R222). -/
inductive Operation where
  | init
  | load (rom : List Byte)
  | step (rnd : Byte)
  | setKey (k : Fin 16)
  | consumeRedraw
  | readFb
  | readSound
  | readState
  deriving DecidableEq, Repr

/-- What an operation gives back (R220). -/
inductive Reply where
  | none
  | ok
  | romTooLarge
  | bit (b : Bool)
  | pixels (fb : BitVec 2048)
  | state (s : State)
  deriving DecidableEq, Repr

/-- The block: built and before its first INIT, when no state exists (R233), or live. -/
inductive Block where
  | built (p : Params)
  | live (s : State)
  deriving DecidableEq, Repr

/-- INIT on a live block: all state as R40 says; the parameters are fixed, and the RND input is no state (R230, R43;
log 2). -/
def State.reinit (s : State) : State := { State.init s.params with rndIn := s.rndIn, rndDraw := s.rndDraw }

/-- Copy bytes into memory from `a` on. -/
def State.copyBytes : List Byte → Nat → State → State
  | [], _, s => s
  | b :: bs, a, s => State.copyBytes bs (a + 1) (s.writeByte a b)

/-- LOAD (R221, R204): too long an image changes nothing. -/
def State.load (s : State) (rom : List Byte) : Reply × State :=
  if rom.length > 3584 then (.romTooLarge, s) else (.ok, State.copyBytes rom 0x200 s)

/-- SET_KEY (R222). -/
def State.pressKey (s : State) (k : Fin 16) : State := s.setKeyCell k true

/-- CONSUME_REDRAW: read and clear (R223). -/
def State.consumeRedraw (s : State) : Bool × State := (s.redraw, { s with redraw := false })

/-- The sound output `SOUND` (R225). -/
def State.sound (s : State) : Bool := s.st != 0

/-- STEP(RND): the step whose random byte is `b` (R226, R100). The bytes supplied for later steps stay. -/
def State.stepRnd (s : State) (b : Byte) : Host.Outcome State Fault Refusal :=
  match Sys2Proof.Machine.step { s with rndIn := b :: s.rndIn } with
  | .next t => .next { t with rndIn := s.rndIn }
  | .fault r => .fault r
  | .refused r => .refused r

/-- One operation on a live block. -/
def operateLive (op : Operation) (s : State) : Host.Outcome (Block × Reply) Fault Refusal :=
  match op with
  | .init => .next (.live s.reinit, .none)
  | .load rom => .next (.live (s.load rom).2, (s.load rom).1)
  | .step b =>
    match s.stepRnd b with
    | .next t => .next (.live t, .none)
    | .fault r => .fault r
    | .refused r => .refused r
  | .setKey k => .next (.live (s.pressKey k), .none)
  | .consumeRedraw => .next (.live s.consumeRedraw.2, .bit s.consumeRedraw.1)
  | .readFb => .next (.live s, .pixels s.fb)
  | .readSound => .next (.live s, .bit s.sound)
  | .readState => .next (.live s, .state s)

/-- One host operation (R220). Before the first INIT every other operation is refused (R233). -/
def operate (op : Operation) (b : Block) : Host.Outcome (Block × Reply) Fault Refusal :=
  match b with
  | .live s => operateLive op s
  | .built p =>
    match op with
    | .init => .next (.live (State.init p), .none)
    | .load _ | .step _ | .setKey _ | .consumeRedraw | .readFb | .readSound | .readState => .refused .beforeInit

/-! ### Ends of a run -/

/-- The instruction the next step would execute, if its fetch does not fault. -/
def State.nextInstr (s : State) : Option Instr :=
  match s.fetch with
  | .ok w => some (decodeWord w)
  | .error _ => none

/-- Program halt: no fault latched, and `PC` addresses a `1nnn` with `nnn = PC` (R235; log 11). -/
def State.programHalted (s : State) : Bool :=
  !s.halted &&
    match s.nextInstr with
    | some (.jp nnn) => addrImm nnn == s.pc
    | _ => false

/-- Waiting: `PC` addresses an Fx0A and no key is pending (R235, 46_keypad_timers.md R182). -/
def State.waiting (s : State) : Bool :=
  !s.halted && s.lowestKey.isNone &&
    match s.nextInstr with
    | some (.ldK _) => true
    | _ => false

end Sys2Proof.Machine
end

