-- ==== Sys2Proof/Safety.lean ====
section
/-! DEFINITION. The terms claims use: the parts of the state and what it means that a part is unchanged, and the
invariant of every step. -/

namespace Sys2Proof.Machine

/-- A part of the state: one for each element of 10_state.md R40, one for each register, entry, cell and byte, and the
model's own fields. -/
inductive StatePart where
  | reg (x : Reg)
  | pc
  | index
  | stackEntry (k : Fin 16)
  | sp
  | dt
  | st
  | pixel (k : Nat)
  | key (k : Fin 16)
  | byte (a : Nat)
  | redraw
  | fault
  | params
  | rndInput
  deriving DecidableEq, Repr

/-- The part `p` is the same in `s` and `t`. Memory is compared through the read of one byte. -/
def StatePart.same (s t : State) : StatePart → Prop
  | .reg x => t.reg x = s.reg x
  | .pc => t.pc = s.pc
  | .index => t.i = s.i
  | .stackEntry k => t.stack[k.val] = s.stack[k.val]
  | .sp => t.sp = s.sp
  | .dt => t.dt = s.dt
  | .st => t.st = s.st
  | .pixel k => t.pixel k = s.pixel k
  | .key k => t.keyAt k = s.keyAt k
  | .byte a => t.readByte a = s.readByte a
  | .redraw => t.redraw = s.redraw
  | .fault => t.fault = s.fault
  | .params => t.params = s.params
  | .rndInput => t.rndIn = s.rndIn ∧ t.rndDraw = s.rndDraw

/-- From `s` to `t` nothing changes but the parts `may` allows. -/
def ChangesOnly (may : StatePart → Prop) (s t : State) : Prop := ∀ p, ¬ may p → p.same s t

/-- An access to the exact address `a` does not fault: the address exists, or the block masks it (20_memory.md R50). -/
abbrev State.inReach (s : State) (a : Nat) : Prop := a ≤ 0xFFF ∨ s.params.oob = .wrap

/-- An access to `count` bytes from `a` on does not fault. -/
abbrev State.rangeInReach (s : State) (a count : Nat) : Prop := count = 0 ∨ s.inReach (a + count - 1)

/-- The latch says what the spec lets a fault say (R37, 60_exceptions.md R200 to R203): nothing when the kind is NONE;
else the address of the instruction still at `PC`, and the first offending address, key value or SP. -/
def State.latchFits (s : State) : Prop :=
  match s.fault.kind with
  | .none => s.fault.value = 0 ∧ s.fault.pc = 0
  | .fetch =>
    s.fault.pc = s.pc ∧ s.params.oob = .fault ∧ 0xFFF ≤ s.pc.toNat ∧ s.fault.value.toNat = max s.pc.toNat 0x1000
  | .read | .write =>
    s.fault.pc = s.pc ∧ s.params.oob = .fault ∧ 0xFFF < s.i.toNat + 15 ∧ s.fault.value.toNat = max s.i.toNat 0x1000
  | .key => s.fault.pc = s.pc ∧ s.params.oob = .fault ∧ 0xF < s.fault.value.toNat ∧ s.fault.value.toNat ≤ 0xFF
  | .stackOverflow => s.fault.pc = s.pc ∧ s.sp.val = 16 ∧ s.fault.value = 16
  | .stackUnderflow => s.fault.pc = s.pc ∧ s.sp.val = 0 ∧ s.fault.value = 0

/-- What every step keeps: memory in its canonical form, and a latch that fits the state it was taken in. -/
structure State.Inv (s : State) : Prop where
  memory : Memory.wf s.params.font s.mem
  latch : s.latchFits

end Sys2Proof.Machine
end

