-- ==== Sys2Proof/Certificates/Slice0/Obligations.lean ====
section
/-! DEFINITION. The statements for the provers, made from the numbered rules of spec/. "The spec's own decision D<n>" names
a row of 92_eei_decisions.md: such a clause is the spec's choice where its source is open, not a sentence of the source. -/

open Sys2Proof Sys2Proof.Machine

/-! ### Encoding -/

/-- Decoding the bytes of an encoded well-formed instruction gives it back, with the bytes after it (30_encoding.md). -/
def Obligations.EncodedInstructionDecodesBack : Prop :=
  ∀ (i : Instr) (rest : List Byte), i.wf = true → decode (encodeBytes i ++ rest) = .ok (i, rest)

/-- Every word decodes to a well-formed instruction whose word it is: each word has one meaning. -/
def Obligations.DecodedWordEncodesBack : Prop :=
  ∀ w : Word, (decodeWord w).wf = true ∧ encode (decodeWord w) = w

/-- A word is unknown exactly when it matches no row of the table (exact matching is the spec's own decision D7). -/
def Obligations.WordIsUnknownIffNoRowMatches : Prop :=
  ∀ w u : Word, decodeWord w = .unknown u ↔ (u = w ∧ ∀ r ∈ opcodeTable, w &&& r.mask ≠ r.value)

/-- No word matches two rows of the table (R75's "no two patterns overlap"). -/
def Obligations.NoWordMatchesTwoRows : Prop :=
  ∀ (w : Word) (j k : Fin opcodeTable.length),
    w &&& (opcodeTable.get j).mask = (opcodeTable.get j).value →
    w &&& (opcodeTable.get k).mask = (opcodeTable.get k).value → j = k

/-- Words written out from the patterns of the table, at least one of each of the sixteen families of 30_encoding.md R74
(the top nibbles 0 to F), and one unknown word. -/
def Obligations.SampleWordsDecode : Prop :=
  decodeWord 0x00E0 = .cls ∧ decodeWord 0x00EE = .ret ∧ decodeWord 0x1234 = .jp 0x234 ∧ decodeWord 0x2FFE = .call 0xFFE ∧
  decodeWord 0x3A42 = .seImm 0xA 0x42 ∧ decodeWord 0x4A42 = .sneImm 0xA 0x42 ∧ decodeWord 0x5120 = .seReg 1 2 ∧
  decodeWord 0x6F81 = .ldImm 0xF 0x81 ∧ decodeWord 0x7181 = .addImm 1 0x81 ∧ decodeWord 0x8AB7 = .subn 0xA 0xB ∧
  decodeWord 0x9120 = .sneReg 1 2 ∧ decodeWord 0xB801 = .jpV0 0x801 ∧
  decodeWord 0xA123 = .ldI 0x123 ∧ decodeWord 0xC50F = .rnd 5 0x0F ∧ decodeWord 0xD12F = .drw 1 2 15 ∧
  decodeWord 0xE79E = .skp 7 ∧ decodeWord 0xFC18 = .ldStV 0xC ∧ decodeWord 0xF265 = .ldVMem 2 ∧
  decodeWord 0x5121 = .unknown 0x5121

/-! ### The step -/

/-- A step runs the instruction whose two bytes stand at `PC`, high byte first; then the timers tick and the random byte
is used up, unless the instruction latched a fault (R100, R105, R106; ticking every completed step is the spec's own
decision D9; the two RND fields are the model's, log 2). -/
def Obligations.StepRunsDecodedInstruction : Prop :=
  ∀ (s t : State) (w : Word) (i : Instr), s.fault.kind = .none →
    (s.params.oob = .wrap ∨ s.pc.toNat + 1 ≤ 0xFFF) →
    w.toNat = (s.readByte (s.pc.toNat % 0x1000)).toNat * 256 + (s.readByte ((s.pc.toNat + 1) % 0x1000)).toNat →
    i = decodeWord w → exec i s = .next t →
    (t.fault.kind = .none → step s = .next { t with
      dt := BitVec.ofNat 8 (t.dt.toNat - 1), st := BitVec.ofNat 8 (t.st.toNat - 1),
      rndIn := s.rndIn.tail, rndDraw := s.rndDraw + 1 }) ∧
    (t.fault.kind ≠ .none → step s = .next t)

/-- A halted block: STEP changes nothing, and no operation but INIT touches the latch (R101, R207; the halt is the spec's
own decision D4). -/
def Obligations.HaltedBlockIsLeftOnlyByInit : Prop :=
  ∀ s : State, s.fault.kind ≠ .none →
    step s = .next s ∧ (∀ b : Byte, operate (.step b) (.live s) = .next (.live s, .none)) ∧
    (∀ (op : Operation) (t : State) (r : Reply), op ≠ .init → operate op (.live s) = .next (.live t, r) →
      t.fault = s.fault) ∧
    (∀ (t : State) (r : Reply), operate .init (.live s) = .next (.live t, r) → t.fault.kind = .none)

/-- A fetch beyond memory faults with the first offending address and changes nothing else (R102, R104; `FAULT` is the
spec's own decision D1). -/
def Obligations.FetchBeyondMemoryFaults : Prop :=
  ∀ s : State, s.fault.kind = .none → s.params.oob = .fault → 0xFFF ≤ s.pc.toNat →
    step s = .next { s with fault :=
      { kind := .fetch, value := if s.pc = 0xFFF then 0x1000 else s.pc, pc := s.pc } }

/-- Every instruction, and every step, answers a next state. This is the model's choice (log 4): the spec's one exception,
OutOfRange, is a next state with the latch written, no step ends in `Outcome.fault`, and a latched fault is left by INIT
alone, as the spec's own decision D4 has it. -/
def Obligations.EveryStepAnswersNextState : Prop :=
  (∀ (i : Instr) (s : State), ∃ t, exec i s = .next t) ∧ ∀ s : State, ∃ t, step s = .next t

/-- A step that faults leaves every part of the state as it was, but the latch, which names its instruction (R104, R202;
precise faults are the spec's own decision D4). -/
def Obligations.FaultsArePrecise : Prop :=
  ∀ s t : State, s.fault.kind = .none → step s = .next t → t.fault.kind ≠ .none →
    t.fault.pc = s.pc ∧ t = { s with fault := t.fault }

/-- Only the instructions R200 lists raise, each its own kind. -/
def Obligations.OnlyListedInstructionsRaise : Prop :=
  ∀ (i : Instr) (s t : State), s.fault.kind = .none → exec i s = .next t → t.fault.kind ≠ .none →
    match i with
    | .ret => t.fault.kind = .stackUnderflow
    | .call _ => t.fault.kind = .stackOverflow
    | .skp _ | .sknp _ => t.fault.kind = .key
    | .drw _ _ _ | .ldVMem _ => t.fault.kind = .read
    | .ldB _ | .ldMemV _ => t.fault.kind = .write
    | _ => False

/-- Under `WRAP` only the stack faults (R50, R51, R201; the spec's own decisions D1, D3, D12). -/
def Obligations.WrapBlockFaultsOnlyOnTheStack : Prop :=
  ∀ s t : State, s.fault.kind = .none → s.params.oob = .wrap → step s = .next t →
    t.fault.kind = .none ∨ t.fault.kind = .stackOverflow ∨ t.fault.kind = .stackUnderflow

/-- Every step keeps the invariant: canonical memory, and a latch that fits the state it was taken in (R35, R37, R203). -/
def Obligations.StepKeepsInvariant : Prop :=
  ∀ s t : State, s.Inv → step s = .next t → t.Inv

/-- The invariant holds after INIT, whatever the parameters, and so at the state after reset. -/
def Obligations.ResetMeetsInvariant : Prop :=
  (∀ p : Params, (State.init p).Inv) ∧ State.reset.Inv

/-- Every host operation keeps the invariant, and INIT establishes it (R220). -/
def Obligations.HostOperationsKeepInvariant : Prop :=
  (∀ (op : Operation) (s t : State) (r : Reply), s.Inv → operate op (.live s) = .next (.live t, r) → t.Inv) ∧
  ∀ (b : Block) (t : State) (r : Reply), operate .init b = .next (.live t, r) → t.Inv

/-! ### Whole-machine rules -/

/-- Only the instructions of R22's table write a register, and only the registers it names (R22; that an instruction
changes nothing unlisted is the spec's own decision D16). -/
def Obligations.OnlyListedInstructionsWriteRegisters : Prop :=
  ∀ (i : Instr) (s t : State) (r : Reg), exec i s = .next t → t.reg r ≠ s.reg r →
    match i with
    | .ldImm x _ | .addImm x _ | .ldReg x _ | .orReg x _ | .andReg x _ | .xorReg x _ | .rnd x _ | .ldVDt x | .ldK x => r = x
    | .addReg x _ | .sub x _ | .shr x _ | .subn x _ | .shl x _ => r = x ∨ r = VF
    | .drw _ _ _ => r = VF
    | .ldVMem x => r ≤ x
    | _ => False

/-- Each other element has only the writers the state rules give it (R25 to R29, R32, R34, R36; D16). -/
def Obligations.OnlyListedInstructionsWriteOtherState : Prop :=
  ∀ (i : Instr) (s t : State), exec i s = .next t →
    (t.i ≠ s.i → match i with | .ldI _ | .addI _ | .ldF _ => True | _ => False) ∧
    (t.stack ≠ s.stack → match i with | .call _ => True | _ => False) ∧
    (t.sp ≠ s.sp → match i with | .call _ | .ret => True | _ => False) ∧
    (t.dt ≠ s.dt → match i with | .ldDtV _ => True | _ => False) ∧
    (t.st ≠ s.st → match i with | .ldStV _ => True | _ => False) ∧
    (t.fb ≠ s.fb → match i with | .cls | .drw _ _ _ => True | _ => False) ∧
    (∀ k, t.keyAt k ≠ s.keyAt k → t.keyAt k = false ∧ match i with | .sknp _ | .ldK _ => True | _ => False) ∧
    (∀ a, t.readByte a ≠ s.readByte a → match i with | .ldB _ | .ldMemV _ => True | _ => False) ∧
    (t.redraw ≠ s.redraw → t.redraw = true ∧ match i with | .drw _ _ _ => True | _ => False) ∧
    t.params = s.params

/-- The random byte reaches no instruction but Cxnn (R109; that RND is an input is the spec's own decision D11; the two
fields are the model's, log 2). -/
def Obligations.RandomByteReachesOnlyCxnn : Prop :=
  ∀ (i : Instr) (s t : State) (supplied : List Byte) (drawn : Nat), (∀ x nn, i ≠ .rnd x nn) → exec i s = .next t →
    exec i { s with rndIn := supplied, rndDraw := drawn } = .next { t with rndIn := supplied, rndDraw := drawn }

/-- `P_FLAG_ORDER` changes nothing outside R154's cases (D5). -/
def Obligations.FlagOrderMattersOnlyInListedCases : Prop :=
  ∀ (i : Instr) (s t : State) (o : FlagOrder),
    (match i with
      | .sub x y | .subn x y => x ≠ VF ∧ y ≠ VF
      | .shr x _ | .shl x _ => x ≠ VF
      | _ => True) →
    exec i s = .next t →
    exec i { s with params := { s.params with flagOrder := o } } =
      .next { t with params := { t.params with flagOrder := o } }

/-- After a completed step each timer is what it was, or what Fx15 or Fx18 wrote, less 1 and not below 0 (R28 to R30,
R106, R184, R185; D9). -/
def Obligations.TimersTickOncePerCompletedStep : Prop :=
  ∀ (s t : State) (w : Word), s.fault.kind = .none → s.fetch = .ok w → step s = .next t → t.fault.kind = .none →
    t.dt.toNat = (match decodeWord w with | .ldDtV x => (s.reg x).toNat | _ => s.dt.toNat) - 1 ∧
    t.st.toNat = (match decodeWord w with | .ldStV x => (s.reg x).toNat | _ => s.st.toNat) - 1

/-- A program halted at a jump to itself stays there: after any number of steps only the timers have moved, each down by
that number and not below 0 (R121, R235; the end of a run is the spec's own decision D35). -/
def Obligations.SelfJumpHaltsForever : Prop :=
  ∀ (s : State) (k : Nat), s.programHalted = true →
    ∃ t : State, Host.Core.run Sys2Proof.core k s = .next t ∧ t.programHalted = true ∧
      t.dt.toNat = s.dt.toNat - k ∧ t.st.toNat = s.st.toNat - k ∧
      ChangesOnly (fun p => p = .dt ∨ p = .st ∨ p = .rndInput) s t

/-- A return, wherever it stands, undoes the call before it: it resumes two bytes after the call (R120, R122; the stack
convention is the spec's own decision D2). -/
def Obligations.ReturnUndoesCall : Prop :=
  ∀ (nnn : Addr) (s : State) (p : Word), s.sp.val < 16 →
    ∃ t u : State, exec (.call nnn) s = .next t ∧ exec .ret { t with pc := p } = .next u ∧
      u.pc.toNat = (s.pc.toNat + 2) % 65536 ∧ u.sp = s.sp ∧
      ChangesOnly (fun q => q = .pc ∨ ∃ k, k.val = s.sp.val ∧ q = .stackEntry k) s u

/-! ### Reset and the host's operations -/

/-- What INIT leaves, element by element, for every setting of the parameters (R40, R230; the latch's values are the
spec's own decision D4). -/
def Obligations.InitGivesResetValues : Prop :=
  ∀ p : Params,
    operate .init (.built p) = .next (.live (State.init p), .none) ∧
    (∀ x, (State.init p).reg x = 0) ∧ (State.init p).pc = 0x200 ∧ (State.init p).i = 0 ∧
    (∀ k : Fin 16, (State.init p).stack[k.val] = 0) ∧ (State.init p).sp = 0 ∧
    (State.init p).dt = 0 ∧ (State.init p).st = 0 ∧ (∀ k, (State.init p).pixel k = false) ∧
    (∀ k, (State.init p).keyAt k = false) ∧ (State.init p).redraw = false ∧
    (State.init p).fault = { kind := .none, value := 0, pc := 0 } ∧ (State.init p).params = p ∧
    (∀ a (h : a < 80), (State.init p).readByte a = p.font[a]) ∧ (∀ a, 80 ≤ a → (State.init p).readByte a = 0)

/-- INIT may come at any time and twice is once (R232; the spec's own decision D31). The RND fields are no state (log 2). -/
def Obligations.InitIsIdempotent : Prop :=
  ∀ s : State, ∃ t : State, operate .init (.live s) = .next (.live t, .none) ∧
    operate .init (.live t) = .next (.live t, .none) ∧
    t = { State.init s.params with rndIn := s.rndIn, rndDraw := s.rndDraw }

/-- Before the first INIT every other operation is refused (R220, R233; the spec's own decision D22). -/
def Obligations.OperationsBeforeInitAreRefused : Prop :=
  ∀ (p : Params) (op : Operation), op ≠ .init → operate op (.built p) = .refused .beforeInit

/-- LOAD copies an image of at most 3584 bytes to 0x200 and touches nothing else; a longer one is turned away and changes
nothing (R204, R221; what LOAD leaves alone is the spec's own decision D23). -/
def Obligations.LoadCopiesTheImage : Prop :=
  ∀ (rom : List Byte) (s : State),
    (rom.length ≤ 3584 → ∃ t : State, operate (.load rom) (.live s) = .next (.live t, .ok) ∧
      (∀ k (h : k < rom.length), t.readByte (0x200 + k) = rom[k]) ∧
      ChangesOnly (fun p => ∃ k < rom.length, p = .byte (0x200 + k)) s t) ∧
    (3584 < rom.length → operate (.load rom) (.live s) = .next (.live s, .romTooLarge))

/-- SET_KEY sets its cell and nothing else; setting it again changes nothing (R222; the spec's own decisions D17, D24). -/
def Obligations.SetKeyLatchesThePress : Prop :=
  ∀ (k : Fin 16) (s : State), ∃ t : State, operate (.setKey k) (.live s) = .next (.live t, .none) ∧
    t.keyAt k = true ∧ ChangesOnly (fun p => p = .key k) s t ∧
    operate (.setKey k) (.live t) = .next (.live t, .none)

/-- CONSUME_REDRAW returns the flag and clears it; a second call returns 0 (R223). -/
def Obligations.ConsumeRedrawReadsAndClears : Prop :=
  ∀ s : State, ∃ t : State, operate .consumeRedraw (.live s) = .next (.live t, .bit s.redraw) ∧
    t.redraw = false ∧ ChangesOnly (fun p => p = .redraw) s t ∧
    operate .consumeRedraw (.live t) = .next (.live t, .bit false)

/-- Reading the framebuffer gives the 2048 cells, row by row, and changes nothing (R224). -/
def Obligations.FramebufferReadChangesNothing : Prop :=
  ∀ s : State, ∃ fb : BitVec 2048, operate .readFb (.live s) = .next (.live s, .pixels fb) ∧
    ∀ x < 64, ∀ y < 32, fb.getLsbD (y * 64 + x) = s.pixel (y * 64 + x)

/-- The sound output says whether ST is nonzero, the state read gives the state, and neither changes it (R225, R227; the
spec's own decisions D25, D26). -/
def Obligations.SoundAndStateReadsChangeNothing : Prop :=
  ∀ s : State, operate .readState (.live s) = .next (.live s, .state s) ∧
    ∃ b : Bool, operate .readSound (.live s) = .next (.live s, .bit b) ∧ (b = true ↔ s.st.toNat ≠ 0)

/-- The byte supplied with STEP is the one Cxnn masks in that step, whatever byte it is (R100, R152, R226; D11). -/
def Obligations.SuppliedByteReachesCxnn : Prop :=
  ∀ (s : State) (b : Byte) (x : Reg) (nn : Byte), s.fault.kind = .none →
    s.fetch = .ok (BitVec.ofNat 16 (0xC000 + x.val * 0x100 + nn.toNat)) →
    ∃ t : State, operate (.step b) (.live s) = .next (.live t, .none) ∧ t.reg x = b &&& nn ∧
      t.pc.toNat = (s.pc.toNat + 2) % 65536

/-! ### Control transfer and skips -/

/-- 1nnn (R121). -/
def Obligations.JumpSetsPc : Prop :=
  ∀ nnn : Addr, decodeWord (BitVec.ofNat 16 (0x1000 + nnn.toNat)) = .jp nnn ∧
    ∀ s : State, ∃ t : State, exec (.jp nnn) s = .next t ∧ t.pc.toNat = nnn.toNat ∧ ChangesOnly (fun p => p = .pc) s t

/-- Bnnn: the base is V0 and the sum is not masked (R123; the spec's own decisions D19, D34). -/
def Obligations.IndexedJumpAddsV0 : Prop :=
  ∀ nnn : Addr, decodeWord (BitVec.ofNat 16 (0xB000 + nnn.toNat)) = .jpV0 nnn ∧
    ∀ s : State, ∃ t : State, exec (.jpV0 nnn) s = .next t ∧ t.pc.toNat = (s.reg 0).toNat + nnn.toNat ∧
      ChangesOnly (fun p => p = .pc) s t

/-- 2nnn pushes its own address (R122; D2). -/
def Obligations.CallPushesItsAddress : Prop :=
  ∀ nnn : Addr, decodeWord (BitVec.ofNat 16 (0x2000 + nnn.toNat)) = .call nnn ∧
    ∀ (s : State) (h : s.sp.val < 16), ∃ t : State, exec (.call nnn) s = .next t ∧
      t.stack[s.sp.val] = s.pc ∧ t.sp.val = s.sp.val + 1 ∧ t.pc.toNat = nnn.toNat ∧
      ChangesOnly (fun p => p = .pc ∨ p = .sp ∨ p = .stackEntry ⟨s.sp.val, h⟩) s t

/-- 00EE resumes two bytes after the address on top, which it leaves in its entry (R120; D2). -/
def Obligations.ReturnPopsTheCallSite : Prop :=
  decodeWord 0x00EE = .ret ∧
    ∀ s : State, s.sp.val ≠ 0 → ∃ t : State, exec .ret s = .next t ∧
      t.pc.toNat = (s.stack[s.sp.val - 1].toNat + 2) % 65536 ∧ t.sp.val = s.sp.val - 1 ∧
      ChangesOnly (fun p => p = .pc ∨ p = .sp) s t

/-- A push on a full stack and a pop of an empty one fault, whatever `P_OOB` is (R201; the spec's own decision D3). -/
def Obligations.StackFaultsWhateverTheMode : Prop :=
  (∀ (nnn : Addr) (s : State), s.sp.val = 16 →
    exec (.call nnn) s = .next { s with fault := { kind := .stackOverflow, value := 16, pc := s.pc } }) ∧
  (∀ s : State, s.sp.val = 0 →
    exec .ret s = .next { s with fault := { kind := .stackUnderflow, value := 0, pc := s.pc } })

/-- 3xnn and 4xnn compare with the byte and skip by 4 or go on by 2 (R130, R131). -/
def Obligations.ImmediateSkipsCompare : Prop :=
  ∀ (x : Reg) (nn : Byte),
    decodeWord (BitVec.ofNat 16 (0x3000 + x.val * 0x100 + nn.toNat)) = .seImm x nn ∧
    decodeWord (BitVec.ofNat 16 (0x4000 + x.val * 0x100 + nn.toNat)) = .sneImm x nn ∧
    ∀ s : State,
      (∃ t : State, exec (.seImm x nn) s = .next t ∧ ChangesOnly (fun p => p = .pc) s t ∧
        t.pc.toNat = (s.pc.toNat + if s.reg x = nn then 4 else 2) % 65536) ∧
      (∃ t : State, exec (.sneImm x nn) s = .next t ∧ ChangesOnly (fun p => p = .pc) s t ∧
        t.pc.toNat = (s.pc.toNat + if s.reg x = nn then 2 else 4) % 65536)

/-- 5xy0 and 9xy0 compare two registers (R132, R133; exact matching is the spec's own decision D7). -/
def Obligations.RegisterSkipsCompare : Prop :=
  ∀ x y : Reg,
    decodeWord (BitVec.ofNat 16 (0x5000 + x.val * 0x100 + y.val * 0x10)) = .seReg x y ∧
    decodeWord (BitVec.ofNat 16 (0x9000 + x.val * 0x100 + y.val * 0x10)) = .sneReg x y ∧
    ∀ s : State,
      (∃ t : State, exec (.seReg x y) s = .next t ∧ ChangesOnly (fun p => p = .pc) s t ∧
        t.pc.toNat = (s.pc.toNat + if s.reg x = s.reg y then 4 else 2) % 65536) ∧
      (∃ t : State, exec (.sneReg x y) s = .next t ∧ ChangesOnly (fun p => p = .pc) s t ∧
        t.pc.toNat = (s.pc.toNat + if s.reg x = s.reg y then 2 else 4) % 65536)

/-- Any word that matches no row is a no-op of two bytes (R107). -/
def Obligations.UnknownWordIsNoOp : Prop :=
  ∀ w : Word, (∀ r ∈ opcodeTable, w &&& r.mask ≠ r.value) → decodeWord w = .unknown w ∧
    ∀ s : State, ∃ t : State, exec (.unknown w) s = .next t ∧ t.pc.toNat = (s.pc.toNat + 2) % 65536 ∧
      ChangesOnly (fun p => p = .pc) s t

/-! ### Registers and arithmetic -/

/-- 6xnn, 7xnn and 8xy0 write Vx alone, VF like any other register (R140, R141, R142). -/
def Obligations.LoadsAndImmediateAddWriteVx : Prop :=
  ∀ (x y : Reg) (nn : Byte),
    decodeWord (BitVec.ofNat 16 (0x6000 + x.val * 0x100 + nn.toNat)) = .ldImm x nn ∧
    decodeWord (BitVec.ofNat 16 (0x7000 + x.val * 0x100 + nn.toNat)) = .addImm x nn ∧
    decodeWord (BitVec.ofNat 16 (0x8000 + x.val * 0x100 + y.val * 0x10)) = .ldReg x y ∧
    ∀ s : State,
      (∃ t : State, exec (.ldImm x nn) s = .next t ∧ t.reg x = nn ∧ t.pc.toNat = (s.pc.toNat + 2) % 65536 ∧
        ChangesOnly (fun p => p = .reg x ∨ p = .pc) s t) ∧
      (∃ t : State, exec (.addImm x nn) s = .next t ∧ (t.reg x).toNat = ((s.reg x).toNat + nn.toNat) % 256 ∧
        t.pc.toNat = (s.pc.toNat + 2) % 65536 ∧ ChangesOnly (fun p => p = .reg x ∨ p = .pc) s t) ∧
      (∃ t : State, exec (.ldReg x y) s = .next t ∧ t.reg x = s.reg y ∧ t.pc.toNat = (s.pc.toNat + 2) % 65536 ∧
        ChangesOnly (fun p => p = .reg x ∨ p = .pc) s t)

/-- 8xy1, 8xy2 and 8xy3 work bit by bit and leave VF alone unless it is Vx (R143 to R145; D16). -/
def Obligations.LogicWorksBitByBit : Prop :=
  ∀ x y : Reg,
    decodeWord (BitVec.ofNat 16 (0x8001 + x.val * 0x100 + y.val * 0x10)) = .orReg x y ∧
    decodeWord (BitVec.ofNat 16 (0x8002 + x.val * 0x100 + y.val * 0x10)) = .andReg x y ∧
    decodeWord (BitVec.ofNat 16 (0x8003 + x.val * 0x100 + y.val * 0x10)) = .xorReg x y ∧
    ∀ s : State,
      (∃ t : State, exec (.orReg x y) s = .next t ∧ t.pc.toNat = (s.pc.toNat + 2) % 65536 ∧
        (∀ b, (t.reg x).getLsbD b = ((s.reg x).getLsbD b || (s.reg y).getLsbD b)) ∧
        ChangesOnly (fun p => p = .reg x ∨ p = .pc) s t) ∧
      (∃ t : State, exec (.andReg x y) s = .next t ∧ t.pc.toNat = (s.pc.toNat + 2) % 65536 ∧
        (∀ b, (t.reg x).getLsbD b = ((s.reg x).getLsbD b && (s.reg y).getLsbD b)) ∧
        ChangesOnly (fun p => p = .reg x ∨ p = .pc) s t) ∧
      (∃ t : State, exec (.xorReg x y) s = .next t ∧ t.pc.toNat = (s.pc.toNat + 2) % 65536 ∧
        (∀ b, (t.reg x).getLsbD b = ((s.reg x).getLsbD b ^^ (s.reg y).getLsbD b)) ∧
        ChangesOnly (fun p => p = .reg x ∨ p = .pc) s t)

/-- 8xy4: the sum modulo 256, and VF the carry of the exact sum, which wins when Vx is VF (R146). -/
def Obligations.AddWritesSumThenCarry : Prop :=
  ∀ x y : Reg, decodeWord (BitVec.ofNat 16 (0x8004 + x.val * 0x100 + y.val * 0x10)) = .addReg x y ∧
    ∀ s : State, ∃ t : State, exec (.addReg x y) s = .next t ∧ t.pc.toNat = (s.pc.toNat + 2) % 65536 ∧
      (x ≠ VF → (t.reg x).toNat = ((s.reg x).toNat + (s.reg y).toNat) % 256) ∧
      (t.reg VF).toNat = (if (s.reg x).toNat + (s.reg y).toNat > 255 then 1 else 0) ∧
      ChangesOnly (fun p => p = .reg x ∨ p = .reg VF ∨ p = .pc) s t

/-- 8xy5: VF is the borrow. Under `AS_WRITTEN` the difference is taken of the registers after VF was written; under
`FLAG_LAST` of the old ones, and VF ends as the flag (R147, R153; the spec's own decision D5). -/
def Obligations.SubtractWritesBorrowAndDifference : Prop :=
  ∀ x y : Reg, decodeWord (BitVec.ofNat 16 (0x8005 + x.val * 0x100 + y.val * 0x10)) = .sub x y ∧
    ∀ (s : State) (flag a b : Nat),
      flag = (if (s.reg x).toNat < (s.reg y).toNat then 1 else 0) →
      a = (if x = VF ∧ s.params.flagOrder = .asWritten then flag else (s.reg x).toNat) →
      b = (if y = VF ∧ s.params.flagOrder = .asWritten then flag else (s.reg y).toNat) →
      ∃ t : State, exec (.sub x y) s = .next t ∧ t.pc.toNat = (s.pc.toNat + 2) % 65536 ∧
        (x ≠ VF ∨ s.params.flagOrder = .asWritten → (t.reg x).toNat = (256 + a - b) % 256) ∧
        (x ≠ VF ∨ s.params.flagOrder = .flagLast → (t.reg VF).toNat = flag) ∧
        ChangesOnly (fun p => p = .reg x ∨ p = .reg VF ∨ p = .pc) s t

/-- 8xy7: VF is 1 when nothing was borrowed; the difference is Vy less Vx (R149, R153; D5). -/
def Obligations.ReverseSubtractWritesNotBorrowAndDifference : Prop :=
  ∀ x y : Reg, decodeWord (BitVec.ofNat 16 (0x8007 + x.val * 0x100 + y.val * 0x10)) = .subn x y ∧
    ∀ (s : State) (flag a b : Nat),
      flag = (if (s.reg x).toNat > (s.reg y).toNat then 0 else 1) →
      a = (if x = VF ∧ s.params.flagOrder = .asWritten then flag else (s.reg x).toNat) →
      b = (if y = VF ∧ s.params.flagOrder = .asWritten then flag else (s.reg y).toNat) →
      ∃ t : State, exec (.subn x y) s = .next t ∧ t.pc.toNat = (s.pc.toNat + 2) % 65536 ∧
        (x ≠ VF ∨ s.params.flagOrder = .asWritten → (t.reg x).toNat = (256 + b - a) % 256) ∧
        (x ≠ VF ∨ s.params.flagOrder = .flagLast → (t.reg VF).toNat = flag) ∧
        ChangesOnly (fun p => p = .reg x ∨ p = .reg VF ∨ p = .pc) s t

/-- 8xy6: VF is the low nibble of Vx, or its lowest bit, by `P_SHIFT_FLAG`; Vx is halved; Vy is not read (R148, R153; the
spec's own decisions D5, D6). -/
def Obligations.ShiftRightWritesFlagAndHalf : Prop :=
  ∀ x y : Reg, decodeWord (BitVec.ofNat 16 (0x8006 + x.val * 0x100 + y.val * 0x10)) = .shr x y ∧
    ∀ (s : State) (flag a : Nat),
      flag = (match s.params.shiftFlag with | .nibble => (s.reg x).toNat % 16 | .bit => (s.reg x).toNat % 2) →
      a = (if x = VF ∧ s.params.flagOrder = .asWritten then flag else (s.reg x).toNat) →
      ∃ t : State, exec (.shr x y) s = .next t ∧ t.pc.toNat = (s.pc.toNat + 2) % 65536 ∧
        (x ≠ VF ∨ s.params.flagOrder = .asWritten → (t.reg x).toNat = a / 2) ∧
        (x ≠ VF ∨ s.params.flagOrder = .flagLast → (t.reg VF).toNat = flag) ∧
        ChangesOnly (fun p => p = .reg x ∨ p = .reg VF ∨ p = .pc) s t

/-- 8xyE: VF is the high nibble of Vx times 8, or its highest bit, by `P_SHIFT_FLAG`; Vx is doubled modulo 256; Vy is not
read (R150, R153; D5, D6). -/
def Obligations.ShiftLeftWritesFlagAndDouble : Prop :=
  ∀ x y : Reg, decodeWord (BitVec.ofNat 16 (0x800E + x.val * 0x100 + y.val * 0x10)) = .shl x y ∧
    ∀ (s : State) (flag a : Nat),
      flag = (match s.params.shiftFlag with | .nibble => (s.reg x).toNat / 16 * 8 | .bit => (s.reg x).toNat / 128) →
      a = (if x = VF ∧ s.params.flagOrder = .asWritten then flag else (s.reg x).toNat) →
      ∃ t : State, exec (.shl x y) s = .next t ∧ t.pc.toNat = (s.pc.toNat + 2) % 65536 ∧
        (x ≠ VF ∨ s.params.flagOrder = .asWritten → (t.reg x).toNat = 2 * a % 256) ∧
        (x ≠ VF ∨ s.params.flagOrder = .flagLast → (t.reg VF).toNat = flag) ∧
        ChangesOnly (fun p => p = .reg x ∨ p = .reg VF ∨ p = .pc) s t

/-- Cxnn: the step's random byte masked, for every byte the host may have supplied and for the free one (R152; D11; the
free value is the model's, log 2). -/
def Obligations.RandomIsMasked : Prop :=
  ∀ (x : Reg) (nn : Byte), decodeWord (BitVec.ofNat 16 (0xC000 + x.val * 0x100 + nn.toNat)) = .rnd x nn ∧
    ∀ s : State, ∃ t : State, exec (.rnd x nn) s = .next t ∧ t.pc.toNat = (s.pc.toNat + 2) % 65536 ∧
      (∀ b rest, s.rndIn = b :: rest → t.reg x = b &&& nn) ∧
      (s.rndIn = [] → t.reg x = Config.freeRnd s.rndDraw &&& nn) ∧
      ChangesOnly (fun p => p = .reg x ∨ p = .pc) s t

/-! ### Index register and memory -/

/-- Annn loads the address; Fx29 loads Vx times 5, not masked to a digit (R160, R162). -/
def Obligations.IndexLoads : Prop :=
  (∀ nnn : Addr, decodeWord (BitVec.ofNat 16 (0xA000 + nnn.toNat)) = .ldI nnn ∧
    ∀ s : State, ∃ t : State, exec (.ldI nnn) s = .next t ∧ t.i.toNat = nnn.toNat ∧
      t.pc.toNat = (s.pc.toNat + 2) % 65536 ∧ ChangesOnly (fun p => p = .index ∨ p = .pc) s t) ∧
  (∀ x : Reg, decodeWord (BitVec.ofNat 16 (0xF029 + x.val * 0x100)) = .ldF x ∧
    ∀ s : State, ∃ t : State, exec (.ldF x) s = .next t ∧ t.i.toNat = (s.reg x).toNat * 5 ∧
      t.pc.toNat = (s.pc.toNat + 2) % 65536 ∧ ChangesOnly (fun p => p = .index ∨ p = .pc) s t)

/-- Fx1E adds modulo 65536 and writes no flag (R161; the spec's own decisions D15, D19). -/
def Obligations.IndexAddWrapsAndSetsNoFlag : Prop :=
  ∀ x : Reg, decodeWord (BitVec.ofNat 16 (0xF01E + x.val * 0x100)) = .addI x ∧
    ∀ s : State, ∃ t : State, exec (.addI x) s = .next t ∧ t.i.toNat = (s.i.toNat + (s.reg x).toNat) % 65536 ∧
      t.pc.toNat = (s.pc.toNat + 2) % 65536 ∧ ChangesOnly (fun p => p = .index ∨ p = .pc) s t

/-- Fx33 stores hundreds, tens and ones at `I`, `I + 1`, `I + 2` and nothing else (R163; the order is the spec's own
decision D13). -/
def Obligations.BcdStoresThreeDigits : Prop :=
  ∀ x : Reg, decodeWord (BitVec.ofNat 16 (0xF033 + x.val * 0x100)) = .ldB x ∧
    ∀ s : State, (s.params.oob = .wrap ∨ s.i.toNat + 2 ≤ 0xFFF) →
      ∃ t : State, exec (.ldB x) s = .next t ∧ t.pc.toNat = (s.pc.toNat + 2) % 65536 ∧
        (t.readByte (s.i.toNat % 0x1000)).toNat = (s.reg x).toNat / 100 ∧
        (t.readByte ((s.i.toNat + 1) % 0x1000)).toNat = (s.reg x).toNat / 10 % 10 ∧
        (t.readByte ((s.i.toNat + 2) % 0x1000)).toNat = (s.reg x).toNat % 10 ∧
        ChangesOnly (fun p => p = .pc ∨ ∃ k < 3, p = .byte ((s.i.toNat + k) % 0x1000)) s t

/-- Fx55 stores V0 to Vx at `I` and up, and nothing else; `I` stays (R164; the spec's own decision D14). -/
def Obligations.RegisterDumpStoresV0ToVx : Prop :=
  ∀ x : Reg, decodeWord (BitVec.ofNat 16 (0xF055 + x.val * 0x100)) = .ldMemV x ∧
    ∀ s : State, (s.params.oob = .wrap ∨ s.i.toNat + x.val ≤ 0xFFF) →
      ∃ t : State, exec (.ldMemV x) s = .next t ∧ t.pc.toNat = (s.pc.toNat + 2) % 65536 ∧
        (∀ k : Reg, k ≤ x → t.readByte ((s.i.toNat + k.val) % 0x1000) = s.reg k) ∧
        ChangesOnly (fun p => p = .pc ∨ ∃ k ≤ x.val, p = .byte ((s.i.toNat + k) % 0x1000)) s t

/-- Fx65 loads V0 to Vx from `I` and up, VF among them when x = F; `I` and memory stay (R165; D14). -/
def Obligations.RegisterLoadReadsV0ToVx : Prop :=
  ∀ x : Reg, decodeWord (BitVec.ofNat 16 (0xF065 + x.val * 0x100)) = .ldVMem x ∧
    ∀ s : State, (s.params.oob = .wrap ∨ s.i.toNat + x.val ≤ 0xFFF) →
      ∃ t : State, exec (.ldVMem x) s = .next t ∧ t.pc.toNat = (s.pc.toNat + 2) % 65536 ∧
        (∀ k : Reg, k ≤ x → t.reg k = s.readByte ((s.i.toNat + k.val) % 0x1000)) ∧
        ChangesOnly (fun p => p = .pc ∨ ∃ k : Reg, k ≤ x ∧ p = .reg k) s t

/-- Under `FAULT` an access run that leaves memory, or a key value above F, faults with the first offending address or
the value, and changes nothing else (R50, R51, R104, R203; the spec's own decisions D1, D4, D12, D33). -/
def Obligations.OutOfRangeOperandsFault : Prop :=
  ∀ s : State, s.params.oob = .fault →
    (∀ x : Reg, 0xFFF < s.i.toNat + 2 → exec (.ldB x) s =
      .next { s with fault := { kind := .write, value := BitVec.ofNat 16 (max s.i.toNat 0x1000), pc := s.pc } }) ∧
    (∀ x : Reg, 0xFFF < s.i.toNat + x.val → exec (.ldMemV x) s =
      .next { s with fault := { kind := .write, value := BitVec.ofNat 16 (max s.i.toNat 0x1000), pc := s.pc } }) ∧
    (∀ x : Reg, 0xFFF < s.i.toNat + x.val → exec (.ldVMem x) s =
      .next { s with fault := { kind := .read, value := BitVec.ofNat 16 (max s.i.toNat 0x1000), pc := s.pc } }) ∧
    (∀ (x y : Reg) (n : Fin 16), n.val ≠ 0 → 0xFFF < s.i.toNat + (n.val - 1) → exec (.drw x y n) s =
      .next { s with fault := { kind := .read, value := BitVec.ofNat 16 (max s.i.toNat 0x1000), pc := s.pc } }) ∧
    (∀ x : Reg, 0xF < (s.reg x).toNat →
      exec (.skp x) s =
        .next { s with fault := { kind := .key, value := BitVec.ofNat 16 (s.reg x).toNat, pc := s.pc } } ∧
      exec (.sknp x) s =
        .next { s with fault := { kind := .key, value := BitVec.ofNat 16 (s.reg x).toNat, pc := s.pc } })

/-! ### Display -/

/-- 00E0 clears every cell and touches neither VF nor `REDRAW` (R170; D16). -/
def Obligations.ClearEmptiesTheScreen : Prop :=
  decodeWord 0x00E0 = .cls ∧
    ∀ s : State, ∃ t : State, exec .cls s = .next t ∧ t.pc.toNat = (s.pc.toNat + 2) % 65536 ∧
      (∀ k, t.pixel k = false) ∧ ChangesOnly (fun p => p = .pc ∨ ∃ k, p = .pixel k) s t

/-- Dxyn cell by cell: the cell of row r and column c, wrapped on both axes, is XORed with bit 7 - c of byte `I + r`; VF
says whether a set cell was turned off; `REDRAW` is set; no other cell changes (R171, R172; the coordinates are read
before VF is written, the spec's own decision D10). -/
def Obligations.DrawXorsTheSprite : Prop :=
  ∀ (x y : Reg) (n : Fin 16),
    decodeWord (BitVec.ofNat 16 (0xD000 + x.val * 0x100 + y.val * 0x10 + n.val)) = .drw x y n ∧
    ∀ (s : State) (bit : Nat → Nat → Bool) (cell : Nat → Nat → Nat),
      (n.val = 0 ∨ s.params.oob = .wrap ∨ s.i.toNat + (n.val - 1) ≤ 0xFFF) →
      (∀ r c, bit r c = (s.readByte ((s.i.toNat + r) % 0x1000)).getLsbD (7 - c)) →
      (∀ r c, cell r c = ((s.reg y).toNat + r) % 32 * 64 + ((s.reg x).toNat + c) % 64) →
      ∃ t : State, exec (.drw x y n) s = .next t ∧ t.pc.toNat = (s.pc.toNat + 2) % 65536 ∧
        (∀ r < n.val, ∀ c < 8, t.pixel (cell r c) = (s.pixel (cell r c) ^^ bit r c)) ∧
        ((∃ r < n.val, ∃ c < 8, bit r c = true ∧ s.pixel (cell r c) = true) → t.reg VF = 1) ∧
        ((∀ r < n.val, ∀ c < 8, bit r c = true → s.pixel (cell r c) = false) → t.reg VF = 0) ∧
        t.redraw = true ∧
        ChangesOnly (fun p => p = .pc ∨ p = .reg VF ∨ p = .redraw ∨ ∃ r < n.val, ∃ c < 8, p = .pixel (cell r c)) s t

/-- Drawing the same sprite twice at the same place gives the framebuffer back (R171), and the second draw collides just
when the first found a set sprite bit over a clear cell. R171's example says the second draw collides whenever the sprite
has a set bit; by R171's own pixel loop it does not when every set bit falls on a set cell, and the model follows the loop
(log 12). Neither coordinate is VF: the first draw would move the second. A single draw with a coordinate in VF is in
DrawXorsTheSprite. -/
def Obligations.DrawingTwiceRestoresTheScreen : Prop :=
  ∀ (x y : Reg) (n : Fin 16) (s : State) (bit : Nat → Nat → Bool) (cell : Nat → Nat → Nat), x ≠ VF → y ≠ VF →
    (n.val = 0 ∨ s.params.oob = .wrap ∨ s.i.toNat + (n.val - 1) ≤ 0xFFF) →
    (∀ r c, bit r c = (s.readByte ((s.i.toNat + r) % 0x1000)).getLsbD (7 - c)) →
    (∀ r c, cell r c = ((s.reg y).toNat + r) % 32 * 64 + ((s.reg x).toNat + c) % 64) →
    ∃ t u : State, exec (.drw x y n) s = .next t ∧ exec (.drw x y n) t = .next u ∧
      (∀ k, u.pixel k = s.pixel k) ∧
      ((∃ r < n.val, ∃ c < 8, bit r c = true ∧ s.pixel (cell r c) = false) → u.reg VF = 1) ∧
      ((∀ r < n.val, ∀ c < 8, bit r c = true → s.pixel (cell r c) = true) → u.reg VF = 0)

/-! ### Keypad and timers -/

/-- Ex9E holds a pressed key, ExA1 consumes it; under `WRAP` the index is Vx modulo 16 (R180, R181, R186; the spec's own
decisions D12, D17). -/
def Obligations.KeySkipsHoldOrConsume : Prop :=
  ∀ x : Reg,
    decodeWord (BitVec.ofNat 16 (0xE09E + x.val * 0x100)) = .skp x ∧
    decodeWord (BitVec.ofNat 16 (0xE0A1 + x.val * 0x100)) = .sknp x ∧
    ∀ (s : State) (k : Fin 16), (s.params.oob = .wrap ∨ (s.reg x).toNat ≤ 0xF) → k.val = (s.reg x).toNat % 16 →
      (∃ t : State, exec (.skp x) s = .next t ∧ ChangesOnly (fun p => p = .pc) s t ∧
        t.pc.toNat = (s.pc.toNat + if s.keyAt k = true then 4 else 2) % 65536) ∧
      (∃ t : State, exec (.sknp x) s = .next t ∧ t.keyAt k = false ∧
        t.pc.toNat = (s.pc.toNat + if s.keyAt k = true then 2 else 4) % 65536 ∧
        ChangesOnly (fun p => p = .pc ∨ p = .key k) s t)

/-- Fx0A takes the smallest pending key and consumes it; with none pending it changes nothing (R182; the spec's own
decision D8). -/
def Obligations.KeyWaitTakesTheSmallestKey : Prop :=
  ∀ x : Reg, decodeWord (BitVec.ofNat 16 (0xF00A + x.val * 0x100)) = .ldK x ∧
    ∀ s : State,
      (∀ k : Fin 16, s.keyAt k = true → (∀ j < k, s.keyAt j = false) →
        ∃ t : State, exec (.ldK x) s = .next t ∧ (t.reg x).toNat = k.val ∧ t.keyAt k = false ∧
          t.pc.toNat = (s.pc.toNat + 2) % 65536 ∧ ChangesOnly (fun p => p = .reg x ∨ p = .key k ∨ p = .pc) s t) ∧
      ((∀ k, s.keyAt k = false) → exec (.ldK x) s = .next s)

/-- Fx07 reads DT as it is before this step's tick, so that after the step Vx is DT plus 1 when it is not 0 (R183). -/
def Obligations.DelayTimerIsRead : Prop :=
  ∀ x : Reg, decodeWord (BitVec.ofNat 16 (0xF007 + x.val * 0x100)) = .ldVDt x ∧
    ∀ s : State,
      (∃ t : State, exec (.ldVDt x) s = .next t ∧ t.reg x = s.dt ∧
        t.pc.toNat = (s.pc.toNat + 2) % 65536 ∧ ChangesOnly (fun p => p = .reg x ∨ p = .pc) s t) ∧
      (s.fault.kind = .none → s.fetch = .ok (BitVec.ofNat 16 (0xF007 + x.val * 0x100)) →
        ∃ t : State, step s = .next t ∧ t.reg x = s.dt ∧ t.dt.toNat = s.dt.toNat - 1)

/-- Fx15 and Fx18 write their timer (R184, R185); the tick of the same step is in TimersTickOncePerCompletedStep. -/
def Obligations.TimersAreWritten : Prop :=
  ∀ x : Reg,
    decodeWord (BitVec.ofNat 16 (0xF015 + x.val * 0x100)) = .ldDtV x ∧
    decodeWord (BitVec.ofNat 16 (0xF018 + x.val * 0x100)) = .ldStV x ∧
    ∀ s : State,
      (∃ t : State, exec (.ldDtV x) s = .next t ∧ t.dt = s.reg x ∧ t.pc.toNat = (s.pc.toNat + 2) % 65536 ∧
        ChangesOnly (fun p => p = .dt ∨ p = .pc) s t) ∧
      (∃ t : State, exec (.ldStV x) s = .next t ∧ t.st = s.reg x ∧ t.pc.toNat = (s.pc.toNat + 2) % 65536 ∧
        ChangesOnly (fun p => p = .st ∨ p = .pc) s t)
end

