-- ==== Sys2Proof/Laws/Decode.lean ====
section
/-! SUPPORT. The fields of each word layout, and the opcode table's masks as arithmetic on a word's digits. -/

namespace Sys2Proof

/-! ### Bytes of a word -/

theorem wordOfBytes_toNat (hi lo : Byte) : (wordOfBytes hi lo).toNat = hi.toNat * 0x100 + lo.toNat := by
  unfold wordOfBytes
  rw [BitVec.toNat_ofNat]
  omega

@[simp] theorem wordOfBytes_high_low (w : Word) : wordOfBytes (highByte w) (lowByte w) = w := by
  apply BitVec.eq_of_toNat_eq
  rw [wordOfBytes_toNat, highByte, lowByte, BitVec.toNat_ofNat, BitVec.toNat_ofNat]
  omega

@[simp] theorem highByte_wordOfBytes (hi lo : Byte) : highByte (wordOfBytes hi lo) = hi := by
  apply BitVec.eq_of_toNat_eq
  rw [highByte, wordOfBytes_toNat, BitVec.toNat_ofNat]
  omega

@[simp] theorem lowByte_wordOfBytes (hi lo : Byte) : lowByte (wordOfBytes hi lo) = lo := by
  apply BitVec.eq_of_toNat_eq
  rw [lowByte, wordOfBytes_toNat, BitVec.toNat_ofNat]
  omega

/-- Two bytes or more always decode, to the instruction of their word. -/
theorem decode_two_bytes (hi lo : Byte) (rest : List Byte) :
    decode (hi :: lo :: rest) = .ok (decodeWord (wordOfBytes hi lo), rest) := rfl

/-! ### Layouts -/

theorem layoutNNN_toNat (o : Nat) (nnn : Addr) (ho : o < 16) : (layoutNNN o nnn).toNat = o * 0x1000 + nnn.toNat := by
  unfold layoutNNN
  rw [BitVec.toNat_ofNat]
  omega

theorem layoutXNN_toNat (o : Nat) (x : Reg) (nn : Byte) (ho : o < 16) :
    (layoutXNN o x nn).toNat = o * 0x1000 + x.val * 0x100 + nn.toNat := by
  unfold layoutXNN
  rw [BitVec.toNat_ofNat]
  omega

theorem layoutXYN_toNat (o : Nat) (x y : Reg) (f : Nat) (ho : o < 16) (hf : f < 16) :
    (layoutXYN o x y f).toNat = o * 0x1000 + x.val * 0x100 + y.val * 0x10 + f := by
  unfold layoutXYN
  rw [BitVec.toNat_ofNat]
  omega

theorem layoutXFF_toNat (o : Nat) (x : Reg) (f : Nat) (ho : o < 16) (hf : f < 256) :
    (layoutXFF o x f).toNat = o * 0x1000 + x.val * 0x100 + f := by
  unfold layoutXFF
  rw [BitVec.toNat_ofNat]
  omega

/-! ### Fields -/

theorem fieldX_eq (w : Word) (x : Reg) (h : w.toNat / 0x100 % 16 = x.val) : fieldX w = x := Fin.ext h

theorem fieldY_eq (w : Word) (y : Reg) (h : w.toNat / 0x10 % 16 = y.val) : fieldY w = y := Fin.ext h

theorem fieldN_eq (w : Word) (n : Fin 16) (h : w.toNat % 16 = n.val) : fieldN w = n := Fin.ext h

theorem fieldNN_eq (w : Word) (nn : Byte) (h : w.toNat % 256 = nn.toNat) : fieldNN w = nn :=
  BitVec.eq_of_toNat_eq (by rw [fieldNN, BitVec.toNat_ofNat]; exact h)

theorem fieldNNN_eq (w : Word) (nnn : Addr) (h : w.toNat % 4096 = nnn.toNat) : fieldNNN w = nnn :=
  BitVec.eq_of_toNat_eq (by rw [fieldNNN, BitVec.toNat_ofNat]; exact h)

/-! ### The table's masks -/

theorem and_F000_toNat (w : Word) : (w &&& 0xF000).toNat = w.toNat / 0x1000 * 0x1000 := by
  rw [BitVec.toNat_and]
  have hw := w.isLt
  apply Nat.eq_of_testBit_eq
  intro i
  rw [Nat.testBit_and, show w.toNat / 0x1000 * 0x1000 = (w.toNat >>> 12) <<< 12 by
    rw [Nat.shiftRight_eq_div_pow, Nat.shiftLeft_eq], Nat.testBit_shiftLeft, Nat.testBit_shiftRight]
  by_cases hi : i < 16
  · interval_cases i <;> simp <;> exact fun _ => by decide
  · have : w.toNat.testBit i = false :=
      Nat.testBit_lt_two_pow (lt_of_lt_of_le hw (Nat.pow_le_pow_right (by decide) (by omega)))
    simp [this, show 12 + (i - 12) = i by omega]

theorem and_000F_toNat (w : Word) : (w &&& 0x000F).toNat = w.toNat % 16 := by
  rw [BitVec.toNat_and]
  exact Nat.and_two_pow_sub_one_eq_mod w.toNat 4

theorem and_00FF_toNat (w : Word) : (w &&& 0x00FF).toNat = w.toNat % 256 := by
  rw [BitVec.toNat_and]
  exact Nat.and_two_pow_sub_one_eq_mod w.toNat 8

theorem or_toNat_of_digits (a b : Word) (q : Nat) (k : Nat) (ha : a.toNat = q * 2 ^ k) (hb : b.toNat < 2 ^ k) :
    (a ||| b).toNat = a.toNat + b.toNat := by
  rw [BitVec.toNat_or, ha, Nat.mul_comm, ← Nat.two_pow_add_eq_or_of_lt hb]

theorem and_F00F_toNat (w : Word) : (w &&& 0xF00F).toNat = w.toNat / 0x1000 * 0x1000 + w.toNat % 16 := by
  have h : w &&& 0xF00F = (w &&& 0xF000) ||| (w &&& 0x000F) := by
    rw [← BitVec.and_or_distrib_left]; rfl
  rw [h, or_toNat_of_digits _ _ (w.toNat / 0x1000) 12 (and_F000_toNat w) (by rw [and_000F_toNat]; omega),
    and_F000_toNat, and_000F_toNat]

theorem and_F0FF_toNat (w : Word) : (w &&& 0xF0FF).toNat = w.toNat / 0x1000 * 0x1000 + w.toNat % 256 := by
  have h : w &&& 0xF0FF = (w &&& 0xF000) ||| (w &&& 0x00FF) := by
    rw [← BitVec.and_or_distrib_left]; rfl
  rw [h, or_toNat_of_digits _ _ (w.toNat / 0x1000) 12 (and_F000_toNat w) (by rw [and_00FF_toNat]; omega),
    and_F000_toNat, and_00FF_toNat]

theorem covers_whole (w v : Word) : (Row.mk 0xFFFF v).covers w = true ↔ w.toNat = v.toNat := by
  have : w &&& 0xFFFF = w := BitVec.and_allOnes
  simp only [Row.covers, this, beq_iff_eq, BitVec.toNat_inj]

theorem covers_family (w v : Word) : (Row.mk 0xF000 v).covers w = true ↔ w.toNat / 0x1000 * 0x1000 = v.toNat := by
  rw [← and_F000_toNat]
  simp only [Row.covers, beq_iff_eq, BitVec.toNat_inj]

theorem covers_nibble (w v : Word) :
    (Row.mk 0xF00F v).covers w = true ↔ w.toNat / 0x1000 * 0x1000 + w.toNat % 16 = v.toNat := by
  rw [← and_F00F_toNat]
  simp only [Row.covers, beq_iff_eq, BitVec.toNat_inj]

theorem covers_byte (w v : Word) :
    (Row.mk 0xF0FF v).covers w = true ↔ w.toNat / 0x1000 * 0x1000 + w.toNat % 256 = v.toNat := by
  rw [← and_F0FF_toNat]
  simp only [Row.covers, beq_iff_eq, BitVec.toNat_inj]

/-! ### The fields of a word of each layout -/

theorem word_toNat (n : Nat) (h : n < 0x10000) : (BitVec.ofNat 16 n).toNat = n := by
  rw [BitVec.toNat_ofNat]
  omega

theorem fields_nnn (w : Word) (o : Nat) (nnn : Addr) (h : w.toNat = o * 0x1000 + nnn.toNat) :
    fieldFamily w = o ∧ fieldNNN w = nnn := by
  have := nnn.isLt
  exact ⟨by unfold fieldFamily; omega, fieldNNN_eq _ _ (by omega)⟩

theorem fields_xnn (w : Word) (o : Nat) (x : Reg) (nn : Byte) (h : w.toNat = o * 0x1000 + x.val * 0x100 + nn.toNat) :
    fieldFamily w = o ∧ fieldX w = x ∧ fieldNN w = nn := by
  have := nn.isLt
  exact ⟨by unfold fieldFamily; omega, fieldX_eq _ _ (by omega), fieldNN_eq _ _ (by omega)⟩

theorem fields_xyn (w : Word) (o : Nat) (x y : Reg) (f : Nat) (hf : f < 16)
    (h : w.toNat = o * 0x1000 + x.val * 0x100 + y.val * 0x10 + f) :
    fieldFamily w = o ∧ fieldX w = x ∧ fieldY w = y ∧ w.toNat % 16 = f :=
  ⟨by unfold fieldFamily; omega, fieldX_eq _ _ (by omega), fieldY_eq _ _ (by omega), by omega⟩

theorem fields_xff (w : Word) (o : Nat) (x : Reg) (f : Nat) (hf : f < 256)
    (h : w.toNat = o * 0x1000 + x.val * 0x100 + f) :
    fieldFamily w = o ∧ fieldX w = x ∧ w.toNat % 256 = f :=
  ⟨by unfold fieldFamily; omega, fieldX_eq _ _ (by omega), by omega⟩

theorem covers_nibble_digits (w v : Word) (o f : Nat) (hv : v.toNat = o * 0x1000 + f) (hf : f < 16) :
    (Row.mk 0xF00F v).covers w = true ↔ w.toNat / 0x1000 = o ∧ w.toNat % 16 = f := by
  rw [covers_nibble, hv]
  omega

theorem covers_byte_digits (w v : Word) (o f : Nat) (hv : v.toNat = o * 0x1000 + f) (hf : f < 256) :
    (Row.mk 0xF0FF v).covers w = true ↔ w.toNat / 0x1000 = o ∧ w.toNat % 256 = f := by
  rw [covers_byte, hv]
  omega

theorem covers_family_digits (w v : Word) (o : Nat) (hv : v.toNat = o * 0x1000) :
    (Row.mk 0xF000 v).covers w = true ↔ w.toNat / 0x1000 = o := by
  rw [covers_family, hv]
  omega

/-- The named words, by their digits: the family, and the low nibble or low byte where the family fixes one. -/
theorem isNamedWord_iff (w : Word) :
    isNamedWord w = true ↔
      w.toNat = 0x00E0 ∨ w.toNat = 0x00EE ∨
      w.toNat / 0x1000 ∈ [1, 2, 3, 4] ∨ (w.toNat / 0x1000 = 5 ∧ w.toNat % 16 = 0) ∨ w.toNat / 0x1000 ∈ [6, 7] ∨
      (w.toNat / 0x1000 = 8 ∧ w.toNat % 16 ∈ [0, 1, 2, 3, 4, 5, 6, 7, 14]) ∨
      (w.toNat / 0x1000 = 9 ∧ w.toNat % 16 = 0) ∨ w.toNat / 0x1000 ∈ [10, 11, 12, 13] ∨
      (w.toNat / 0x1000 = 14 ∧ w.toNat % 256 ∈ [0x9E, 0xA1]) ∨
      (w.toNat / 0x1000 = 15 ∧ w.toNat % 256 ∈ [0x07, 0x0A, 0x15, 0x18, 0x1E, 0x29, 0x33, 0x55, 0x65]) := by
  simp only [isNamedWord, opcodeTable, rowsLow, rowsAlu, rowsMid, rowsF, List.cons_append, List.nil_append,
    List.any_cons, List.any_nil, Bool.or_eq_true, Bool.false_eq_true, covers_whole, List.mem_cons, List.not_mem_nil,
    or_false, or_assoc, and_or_left, BitVec.reduceToNat,
    covers_family_digits w 0x1000 1 rfl, covers_family_digits w 0x2000 2 rfl, covers_family_digits w 0x3000 3 rfl,
    covers_family_digits w 0x4000 4 rfl, covers_family_digits w 0x6000 6 rfl, covers_family_digits w 0x7000 7 rfl,
    covers_family_digits w 0xA000 10 rfl, covers_family_digits w 0xB000 11 rfl, covers_family_digits w 0xC000 12 rfl,
    covers_family_digits w 0xD000 13 rfl, covers_nibble_digits w 0x5000 5 0 rfl (by decide),
    covers_nibble_digits w 0x8000 8 0 rfl (by decide), covers_nibble_digits w 0x8001 8 1 rfl (by decide),
    covers_nibble_digits w 0x8002 8 2 rfl (by decide), covers_nibble_digits w 0x8003 8 3 rfl (by decide),
    covers_nibble_digits w 0x8004 8 4 rfl (by decide), covers_nibble_digits w 0x8005 8 5 rfl (by decide),
    covers_nibble_digits w 0x8006 8 6 rfl (by decide), covers_nibble_digits w 0x8007 8 7 rfl (by decide),
    covers_nibble_digits w 0x800E 8 14 rfl (by decide), covers_nibble_digits w 0x9000 9 0 rfl (by decide),
    covers_byte_digits w 0xE09E 14 0x9E rfl (by decide), covers_byte_digits w 0xE0A1 14 0xA1 rfl (by decide),
    covers_byte_digits w 0xF007 15 0x07 rfl (by decide), covers_byte_digits w 0xF00A 15 0x0A rfl (by decide),
    covers_byte_digits w 0xF015 15 0x15 rfl (by decide), covers_byte_digits w 0xF018 15 0x18 rfl (by decide),
    covers_byte_digits w 0xF01E 15 0x1E rfl (by decide), covers_byte_digits w 0xF029 15 0x29 rfl (by decide),
    covers_byte_digits w 0xF033 15 0x33 rfl (by decide), covers_byte_digits w 0xF055 15 0x55 rfl (by decide),
    covers_byte_digits w 0xF065 15 0x65 rfl (by decide)]

end Sys2Proof
end

