-- ==== Sys2Proof/Laws/State.lean ====
section
/-! SUPPORT. One lemma for each field and accessor of State under each update, all true by `rfl`, so that no later proof
unfolds a record update. -/

namespace Sys2Proof.Machine

variable (s : State)

/-! ### `setReg` -/

@[simp] theorem State.setReg_v (x : Reg) (b : Byte) : (s.setReg x b).v = s.v.set x.val b := rfl
@[simp] theorem State.setReg_pc (x : Reg) (b : Byte) : (s.setReg x b).pc = s.pc := rfl
@[simp] theorem State.setReg_i (x : Reg) (b : Byte) : (s.setReg x b).i = s.i := rfl
@[simp] theorem State.setReg_stack (x : Reg) (b : Byte) : (s.setReg x b).stack = s.stack := rfl
@[simp] theorem State.setReg_sp (x : Reg) (b : Byte) : (s.setReg x b).sp = s.sp := rfl
@[simp] theorem State.setReg_dt (x : Reg) (b : Byte) : (s.setReg x b).dt = s.dt := rfl
@[simp] theorem State.setReg_st (x : Reg) (b : Byte) : (s.setReg x b).st = s.st := rfl
@[simp] theorem State.setReg_fb (x : Reg) (b : Byte) : (s.setReg x b).fb = s.fb := rfl
@[simp] theorem State.setReg_key (x : Reg) (b : Byte) : (s.setReg x b).key = s.key := rfl
@[simp] theorem State.setReg_mem (x : Reg) (b : Byte) : (s.setReg x b).mem = s.mem := rfl
@[simp] theorem State.setReg_redraw (x : Reg) (b : Byte) : (s.setReg x b).redraw = s.redraw := rfl
@[simp] theorem State.setReg_fault (x : Reg) (b : Byte) : (s.setReg x b).fault = s.fault := rfl
@[simp] theorem State.setReg_params (x : Reg) (b : Byte) : (s.setReg x b).params = s.params := rfl
@[simp] theorem State.setReg_rndIn (x : Reg) (b : Byte) : (s.setReg x b).rndIn = s.rndIn := rfl
@[simp] theorem State.setReg_rndDraw (x : Reg) (b : Byte) : (s.setReg x b).rndDraw = s.rndDraw := rfl
@[simp] theorem State.setReg_keyAt (x : Reg) (b : Byte) (k : Fin 16) : (s.setReg x b).keyAt k = s.keyAt k := rfl
@[simp] theorem State.setReg_readByte (x : Reg) (b : Byte) (a : Nat) : (s.setReg x b).readByte a = s.readByte a := rfl
@[simp] theorem State.setReg_pixel (x : Reg) (b : Byte) (k : Nat) : (s.setReg x b).pixel k = s.pixel k := rfl
@[simp] theorem State.setReg_halted (x : Reg) (b : Byte) : (s.setReg x b).halted = s.halted := rfl
@[simp] theorem State.setReg_rnd (x : Reg) (b : Byte) : (s.setReg x b).rnd = s.rnd := rfl

/-! ### `jumpTo` -/

@[simp] theorem State.jumpTo_v (w : Word) : (s.jumpTo w).v = s.v := rfl
@[simp] theorem State.jumpTo_pc (w : Word) : (s.jumpTo w).pc = w := rfl
@[simp] theorem State.jumpTo_i (w : Word) : (s.jumpTo w).i = s.i := rfl
@[simp] theorem State.jumpTo_stack (w : Word) : (s.jumpTo w).stack = s.stack := rfl
@[simp] theorem State.jumpTo_sp (w : Word) : (s.jumpTo w).sp = s.sp := rfl
@[simp] theorem State.jumpTo_dt (w : Word) : (s.jumpTo w).dt = s.dt := rfl
@[simp] theorem State.jumpTo_st (w : Word) : (s.jumpTo w).st = s.st := rfl
@[simp] theorem State.jumpTo_fb (w : Word) : (s.jumpTo w).fb = s.fb := rfl
@[simp] theorem State.jumpTo_key (w : Word) : (s.jumpTo w).key = s.key := rfl
@[simp] theorem State.jumpTo_mem (w : Word) : (s.jumpTo w).mem = s.mem := rfl
@[simp] theorem State.jumpTo_redraw (w : Word) : (s.jumpTo w).redraw = s.redraw := rfl
@[simp] theorem State.jumpTo_fault (w : Word) : (s.jumpTo w).fault = s.fault := rfl
@[simp] theorem State.jumpTo_params (w : Word) : (s.jumpTo w).params = s.params := rfl
@[simp] theorem State.jumpTo_rndIn (w : Word) : (s.jumpTo w).rndIn = s.rndIn := rfl
@[simp] theorem State.jumpTo_rndDraw (w : Word) : (s.jumpTo w).rndDraw = s.rndDraw := rfl
@[simp] theorem State.jumpTo_reg (w : Word) (y : Reg) : (s.jumpTo w).reg y = s.reg y := rfl
@[simp] theorem State.jumpTo_keyAt (w : Word) (k : Fin 16) : (s.jumpTo w).keyAt k = s.keyAt k := rfl
@[simp] theorem State.jumpTo_readByte (w : Word) (a : Nat) : (s.jumpTo w).readByte a = s.readByte a := rfl
@[simp] theorem State.jumpTo_pixel (w : Word) (k : Nat) : (s.jumpTo w).pixel k = s.pixel k := rfl
@[simp] theorem State.jumpTo_halted (w : Word) : (s.jumpTo w).halted = s.halted := rfl
@[simp] theorem State.jumpTo_rnd (w : Word) : (s.jumpTo w).rnd = s.rnd := rfl

/-! ### `advance` -/

@[simp] theorem State.advance_v : (s.advance).v = s.v := rfl
@[simp] theorem State.advance_pc : (s.advance).pc = wrap16 (s.pc.toNat + 2) := rfl
@[simp] theorem State.advance_i : (s.advance).i = s.i := rfl
@[simp] theorem State.advance_stack : (s.advance).stack = s.stack := rfl
@[simp] theorem State.advance_sp : (s.advance).sp = s.sp := rfl
@[simp] theorem State.advance_dt : (s.advance).dt = s.dt := rfl
@[simp] theorem State.advance_st : (s.advance).st = s.st := rfl
@[simp] theorem State.advance_fb : (s.advance).fb = s.fb := rfl
@[simp] theorem State.advance_key : (s.advance).key = s.key := rfl
@[simp] theorem State.advance_mem : (s.advance).mem = s.mem := rfl
@[simp] theorem State.advance_redraw : (s.advance).redraw = s.redraw := rfl
@[simp] theorem State.advance_fault : (s.advance).fault = s.fault := rfl
@[simp] theorem State.advance_params : (s.advance).params = s.params := rfl
@[simp] theorem State.advance_rndIn : (s.advance).rndIn = s.rndIn := rfl
@[simp] theorem State.advance_rndDraw : (s.advance).rndDraw = s.rndDraw := rfl
@[simp] theorem State.advance_reg (y : Reg) : (s.advance).reg y = s.reg y := rfl
@[simp] theorem State.advance_keyAt (k : Fin 16) : (s.advance).keyAt k = s.keyAt k := rfl
@[simp] theorem State.advance_readByte (a : Nat) : (s.advance).readByte a = s.readByte a := rfl
@[simp] theorem State.advance_pixel (k : Nat) : (s.advance).pixel k = s.pixel k := rfl
@[simp] theorem State.advance_halted : (s.advance).halted = s.halted := rfl
@[simp] theorem State.advance_rnd : (s.advance).rnd = s.rnd := rfl

/-! ### `skipIf` -/

@[simp] theorem State.skipIf_v (c : Bool) : (s.skipIf c).v = s.v := rfl
@[simp] theorem State.skipIf_pc (c : Bool) : (s.skipIf c).pc = wrap16 (s.pc.toNat + if c then 4 else 2) := rfl
@[simp] theorem State.skipIf_i (c : Bool) : (s.skipIf c).i = s.i := rfl
@[simp] theorem State.skipIf_stack (c : Bool) : (s.skipIf c).stack = s.stack := rfl
@[simp] theorem State.skipIf_sp (c : Bool) : (s.skipIf c).sp = s.sp := rfl
@[simp] theorem State.skipIf_dt (c : Bool) : (s.skipIf c).dt = s.dt := rfl
@[simp] theorem State.skipIf_st (c : Bool) : (s.skipIf c).st = s.st := rfl
@[simp] theorem State.skipIf_fb (c : Bool) : (s.skipIf c).fb = s.fb := rfl
@[simp] theorem State.skipIf_key (c : Bool) : (s.skipIf c).key = s.key := rfl
@[simp] theorem State.skipIf_mem (c : Bool) : (s.skipIf c).mem = s.mem := rfl
@[simp] theorem State.skipIf_redraw (c : Bool) : (s.skipIf c).redraw = s.redraw := rfl
@[simp] theorem State.skipIf_fault (c : Bool) : (s.skipIf c).fault = s.fault := rfl
@[simp] theorem State.skipIf_params (c : Bool) : (s.skipIf c).params = s.params := rfl
@[simp] theorem State.skipIf_rndIn (c : Bool) : (s.skipIf c).rndIn = s.rndIn := rfl
@[simp] theorem State.skipIf_rndDraw (c : Bool) : (s.skipIf c).rndDraw = s.rndDraw := rfl
@[simp] theorem State.skipIf_reg (c : Bool) (y : Reg) : (s.skipIf c).reg y = s.reg y := rfl
@[simp] theorem State.skipIf_keyAt (c : Bool) (k : Fin 16) : (s.skipIf c).keyAt k = s.keyAt k := rfl
@[simp] theorem State.skipIf_readByte (c : Bool) (a : Nat) : (s.skipIf c).readByte a = s.readByte a := rfl
@[simp] theorem State.skipIf_pixel (c : Bool) (k : Nat) : (s.skipIf c).pixel k = s.pixel k := rfl
@[simp] theorem State.skipIf_halted (c : Bool) : (s.skipIf c).halted = s.halted := rfl
@[simp] theorem State.skipIf_rnd (c : Bool) : (s.skipIf c).rnd = s.rnd := rfl

/-! ### `writeByte` -/

@[simp] theorem State.writeByte_v (e : Nat) (b : Byte) : (s.writeByte e b).v = s.v := rfl
@[simp] theorem State.writeByte_pc (e : Nat) (b : Byte) : (s.writeByte e b).pc = s.pc := rfl
@[simp] theorem State.writeByte_i (e : Nat) (b : Byte) : (s.writeByte e b).i = s.i := rfl
@[simp] theorem State.writeByte_stack (e : Nat) (b : Byte) : (s.writeByte e b).stack = s.stack := rfl
@[simp] theorem State.writeByte_sp (e : Nat) (b : Byte) : (s.writeByte e b).sp = s.sp := rfl
@[simp] theorem State.writeByte_dt (e : Nat) (b : Byte) : (s.writeByte e b).dt = s.dt := rfl
@[simp] theorem State.writeByte_st (e : Nat) (b : Byte) : (s.writeByte e b).st = s.st := rfl
@[simp] theorem State.writeByte_fb (e : Nat) (b : Byte) : (s.writeByte e b).fb = s.fb := rfl
@[simp] theorem State.writeByte_key (e : Nat) (b : Byte) : (s.writeByte e b).key = s.key := rfl
@[simp] theorem State.writeByte_mem (e : Nat) (b : Byte) : (s.writeByte e b).mem = Memory.write s.params.font s.mem e b := rfl
@[simp] theorem State.writeByte_redraw (e : Nat) (b : Byte) : (s.writeByte e b).redraw = s.redraw := rfl
@[simp] theorem State.writeByte_fault (e : Nat) (b : Byte) : (s.writeByte e b).fault = s.fault := rfl
@[simp] theorem State.writeByte_params (e : Nat) (b : Byte) : (s.writeByte e b).params = s.params := rfl
@[simp] theorem State.writeByte_rndIn (e : Nat) (b : Byte) : (s.writeByte e b).rndIn = s.rndIn := rfl
@[simp] theorem State.writeByte_rndDraw (e : Nat) (b : Byte) : (s.writeByte e b).rndDraw = s.rndDraw := rfl
@[simp] theorem State.writeByte_reg (e : Nat) (b : Byte) (y : Reg) : (s.writeByte e b).reg y = s.reg y := rfl
@[simp] theorem State.writeByte_keyAt (e : Nat) (b : Byte) (k : Fin 16) : (s.writeByte e b).keyAt k = s.keyAt k := rfl
@[simp] theorem State.writeByte_pixel (e : Nat) (b : Byte) (k : Nat) : (s.writeByte e b).pixel k = s.pixel k := rfl
@[simp] theorem State.writeByte_halted (e : Nat) (b : Byte) : (s.writeByte e b).halted = s.halted := rfl
@[simp] theorem State.writeByte_rnd (e : Nat) (b : Byte) : (s.writeByte e b).rnd = s.rnd := rfl

/-! ### `setKeyCell` -/

@[simp] theorem State.setKeyCell_v (j : Fin 16) (c : Bool) : (s.setKeyCell j c).v = s.v := rfl
@[simp] theorem State.setKeyCell_pc (j : Fin 16) (c : Bool) : (s.setKeyCell j c).pc = s.pc := rfl
@[simp] theorem State.setKeyCell_i (j : Fin 16) (c : Bool) : (s.setKeyCell j c).i = s.i := rfl
@[simp] theorem State.setKeyCell_stack (j : Fin 16) (c : Bool) : (s.setKeyCell j c).stack = s.stack := rfl
@[simp] theorem State.setKeyCell_sp (j : Fin 16) (c : Bool) : (s.setKeyCell j c).sp = s.sp := rfl
@[simp] theorem State.setKeyCell_dt (j : Fin 16) (c : Bool) : (s.setKeyCell j c).dt = s.dt := rfl
@[simp] theorem State.setKeyCell_st (j : Fin 16) (c : Bool) : (s.setKeyCell j c).st = s.st := rfl
@[simp] theorem State.setKeyCell_fb (j : Fin 16) (c : Bool) : (s.setKeyCell j c).fb = s.fb := rfl
@[simp] theorem State.setKeyCell_key (j : Fin 16) (c : Bool) : (s.setKeyCell j c).key = s.key.set j.val c := rfl
@[simp] theorem State.setKeyCell_mem (j : Fin 16) (c : Bool) : (s.setKeyCell j c).mem = s.mem := rfl
@[simp] theorem State.setKeyCell_redraw (j : Fin 16) (c : Bool) : (s.setKeyCell j c).redraw = s.redraw := rfl
@[simp] theorem State.setKeyCell_fault (j : Fin 16) (c : Bool) : (s.setKeyCell j c).fault = s.fault := rfl
@[simp] theorem State.setKeyCell_params (j : Fin 16) (c : Bool) : (s.setKeyCell j c).params = s.params := rfl
@[simp] theorem State.setKeyCell_rndIn (j : Fin 16) (c : Bool) : (s.setKeyCell j c).rndIn = s.rndIn := rfl
@[simp] theorem State.setKeyCell_rndDraw (j : Fin 16) (c : Bool) : (s.setKeyCell j c).rndDraw = s.rndDraw := rfl
@[simp] theorem State.setKeyCell_reg (j : Fin 16) (c : Bool) (y : Reg) : (s.setKeyCell j c).reg y = s.reg y := rfl
@[simp] theorem State.setKeyCell_readByte (j : Fin 16) (c : Bool) (a : Nat) : (s.setKeyCell j c).readByte a = s.readByte a := rfl
@[simp] theorem State.setKeyCell_pixel (j : Fin 16) (c : Bool) (k : Nat) : (s.setKeyCell j c).pixel k = s.pixel k := rfl
@[simp] theorem State.setKeyCell_halted (j : Fin 16) (c : Bool) : (s.setKeyCell j c).halted = s.halted := rfl
@[simp] theorem State.setKeyCell_rnd (j : Fin 16) (c : Bool) : (s.setKeyCell j c).rnd = s.rnd := rfl

/-! ### `setIndex` -/

@[simp] theorem State.setIndex_v (w : Word) : (s.setIndex w).v = s.v := rfl
@[simp] theorem State.setIndex_pc (w : Word) : (s.setIndex w).pc = s.pc := rfl
@[simp] theorem State.setIndex_i (w : Word) : (s.setIndex w).i = w := rfl
@[simp] theorem State.setIndex_stack (w : Word) : (s.setIndex w).stack = s.stack := rfl
@[simp] theorem State.setIndex_sp (w : Word) : (s.setIndex w).sp = s.sp := rfl
@[simp] theorem State.setIndex_dt (w : Word) : (s.setIndex w).dt = s.dt := rfl
@[simp] theorem State.setIndex_st (w : Word) : (s.setIndex w).st = s.st := rfl
@[simp] theorem State.setIndex_fb (w : Word) : (s.setIndex w).fb = s.fb := rfl
@[simp] theorem State.setIndex_key (w : Word) : (s.setIndex w).key = s.key := rfl
@[simp] theorem State.setIndex_mem (w : Word) : (s.setIndex w).mem = s.mem := rfl
@[simp] theorem State.setIndex_redraw (w : Word) : (s.setIndex w).redraw = s.redraw := rfl
@[simp] theorem State.setIndex_fault (w : Word) : (s.setIndex w).fault = s.fault := rfl
@[simp] theorem State.setIndex_params (w : Word) : (s.setIndex w).params = s.params := rfl
@[simp] theorem State.setIndex_rndIn (w : Word) : (s.setIndex w).rndIn = s.rndIn := rfl
@[simp] theorem State.setIndex_rndDraw (w : Word) : (s.setIndex w).rndDraw = s.rndDraw := rfl
@[simp] theorem State.setIndex_reg (w : Word) (y : Reg) : (s.setIndex w).reg y = s.reg y := rfl
@[simp] theorem State.setIndex_keyAt (w : Word) (k : Fin 16) : (s.setIndex w).keyAt k = s.keyAt k := rfl
@[simp] theorem State.setIndex_readByte (w : Word) (a : Nat) : (s.setIndex w).readByte a = s.readByte a := rfl
@[simp] theorem State.setIndex_pixel (w : Word) (k : Nat) : (s.setIndex w).pixel k = s.pixel k := rfl
@[simp] theorem State.setIndex_halted (w : Word) : (s.setIndex w).halted = s.halted := rfl
@[simp] theorem State.setIndex_rnd (w : Word) : (s.setIndex w).rnd = s.rnd := rfl

/-! ### `nextRnd` -/

@[simp] theorem State.nextRnd_v : (s.nextRnd).v = s.v := rfl
@[simp] theorem State.nextRnd_pc : (s.nextRnd).pc = s.pc := rfl
@[simp] theorem State.nextRnd_i : (s.nextRnd).i = s.i := rfl
@[simp] theorem State.nextRnd_stack : (s.nextRnd).stack = s.stack := rfl
@[simp] theorem State.nextRnd_sp : (s.nextRnd).sp = s.sp := rfl
@[simp] theorem State.nextRnd_dt : (s.nextRnd).dt = s.dt := rfl
@[simp] theorem State.nextRnd_st : (s.nextRnd).st = s.st := rfl
@[simp] theorem State.nextRnd_fb : (s.nextRnd).fb = s.fb := rfl
@[simp] theorem State.nextRnd_key : (s.nextRnd).key = s.key := rfl
@[simp] theorem State.nextRnd_mem : (s.nextRnd).mem = s.mem := rfl
@[simp] theorem State.nextRnd_redraw : (s.nextRnd).redraw = s.redraw := rfl
@[simp] theorem State.nextRnd_fault : (s.nextRnd).fault = s.fault := rfl
@[simp] theorem State.nextRnd_params : (s.nextRnd).params = s.params := rfl
@[simp] theorem State.nextRnd_rndIn : (s.nextRnd).rndIn = s.rndIn.tail := rfl
@[simp] theorem State.nextRnd_rndDraw : (s.nextRnd).rndDraw = s.rndDraw + 1 := rfl
@[simp] theorem State.nextRnd_reg (y : Reg) : (s.nextRnd).reg y = s.reg y := rfl
@[simp] theorem State.nextRnd_keyAt (k : Fin 16) : (s.nextRnd).keyAt k = s.keyAt k := rfl
@[simp] theorem State.nextRnd_readByte (a : Nat) : (s.nextRnd).readByte a = s.readByte a := rfl
@[simp] theorem State.nextRnd_pixel (k : Nat) : (s.nextRnd).pixel k = s.pixel k := rfl
@[simp] theorem State.nextRnd_halted : (s.nextRnd).halted = s.halted := rfl

/-! ### `tick` -/

@[simp] theorem State.tick_v : (s.tick).v = s.v := rfl
@[simp] theorem State.tick_pc : (s.tick).pc = s.pc := rfl
@[simp] theorem State.tick_i : (s.tick).i = s.i := rfl
@[simp] theorem State.tick_stack : (s.tick).stack = s.stack := rfl
@[simp] theorem State.tick_sp : (s.tick).sp = s.sp := rfl
@[simp] theorem State.tick_dt : (s.tick).dt = tickDown s.dt := rfl
@[simp] theorem State.tick_st : (s.tick).st = tickDown s.st := rfl
@[simp] theorem State.tick_fb : (s.tick).fb = s.fb := rfl
@[simp] theorem State.tick_key : (s.tick).key = s.key := rfl
@[simp] theorem State.tick_mem : (s.tick).mem = s.mem := rfl
@[simp] theorem State.tick_redraw : (s.tick).redraw = s.redraw := rfl
@[simp] theorem State.tick_fault : (s.tick).fault = s.fault := rfl
@[simp] theorem State.tick_params : (s.tick).params = s.params := rfl
@[simp] theorem State.tick_rndIn : (s.tick).rndIn = s.rndIn := rfl
@[simp] theorem State.tick_rndDraw : (s.tick).rndDraw = s.rndDraw := rfl
@[simp] theorem State.tick_reg (y : Reg) : (s.tick).reg y = s.reg y := rfl
@[simp] theorem State.tick_keyAt (k : Fin 16) : (s.tick).keyAt k = s.keyAt k := rfl
@[simp] theorem State.tick_readByte (a : Nat) : (s.tick).readByte a = s.readByte a := rfl
@[simp] theorem State.tick_pixel (k : Nat) : (s.tick).pixel k = s.pixel k := rfl
@[simp] theorem State.tick_halted : (s.tick).halted = s.halted := rfl
@[simp] theorem State.tick_rnd : (s.tick).rnd = s.rnd := rfl

/-! ### `takeFault` -/

@[simp] theorem State.takeFault_v (r : OutOfRange) : (s.takeFault r).v = s.v := rfl
@[simp] theorem State.takeFault_pc (r : OutOfRange) : (s.takeFault r).pc = s.pc := rfl
@[simp] theorem State.takeFault_i (r : OutOfRange) : (s.takeFault r).i = s.i := rfl
@[simp] theorem State.takeFault_stack (r : OutOfRange) : (s.takeFault r).stack = s.stack := rfl
@[simp] theorem State.takeFault_sp (r : OutOfRange) : (s.takeFault r).sp = s.sp := rfl
@[simp] theorem State.takeFault_dt (r : OutOfRange) : (s.takeFault r).dt = s.dt := rfl
@[simp] theorem State.takeFault_st (r : OutOfRange) : (s.takeFault r).st = s.st := rfl
@[simp] theorem State.takeFault_fb (r : OutOfRange) : (s.takeFault r).fb = s.fb := rfl
@[simp] theorem State.takeFault_key (r : OutOfRange) : (s.takeFault r).key = s.key := rfl
@[simp] theorem State.takeFault_mem (r : OutOfRange) : (s.takeFault r).mem = s.mem := rfl
@[simp] theorem State.takeFault_redraw (r : OutOfRange) : (s.takeFault r).redraw = s.redraw := rfl
@[simp] theorem State.takeFault_fault (r : OutOfRange) : (s.takeFault r).fault = ⟨r.kind, wrap16 r.value, s.pc⟩ := rfl
@[simp] theorem State.takeFault_params (r : OutOfRange) : (s.takeFault r).params = s.params := rfl
@[simp] theorem State.takeFault_rndIn (r : OutOfRange) : (s.takeFault r).rndIn = s.rndIn := rfl
@[simp] theorem State.takeFault_rndDraw (r : OutOfRange) : (s.takeFault r).rndDraw = s.rndDraw := rfl
@[simp] theorem State.takeFault_reg (r : OutOfRange) (y : Reg) : (s.takeFault r).reg y = s.reg y := rfl
@[simp] theorem State.takeFault_keyAt (r : OutOfRange) (k : Fin 16) : (s.takeFault r).keyAt k = s.keyAt k := rfl
@[simp] theorem State.takeFault_readByte (r : OutOfRange) (a : Nat) : (s.takeFault r).readByte a = s.readByte a := rfl
@[simp] theorem State.takeFault_pixel (r : OutOfRange) (k : Nat) : (s.takeFault r).pixel k = s.pixel k := rfl
@[simp] theorem State.takeFault_rnd (r : OutOfRange) : (s.takeFault r).rnd = s.rnd := rfl

/-! ### Registers and keys under their own writes -/

@[simp] theorem State.setReg_reg_same (x : Reg) (b : Byte) : (s.setReg x b).reg x = b := by
  simp [State.reg, State.setReg]

theorem State.setReg_reg (x y : Reg) (b : Byte) : (s.setReg x b).reg y = if y = x then b else s.reg y := by
  by_cases h : y = x
  · subst h; simp
  · have : x.val ≠ y.val := fun e => h (Fin.ext e.symm)
    simp [State.reg, State.setReg, h, this]

theorem State.setReg_reg_other (x y : Reg) (b : Byte) (h : y ≠ x) : (s.setReg x b).reg y = s.reg y := by
  simp [State.setReg_reg, h]

theorem State.setKeyCell_keyAt (j k : Fin 16) (c : Bool) :
    (s.setKeyCell j c).keyAt k = if k = j then c else s.keyAt k := by
  by_cases h : k = j
  · subst h; simp [State.keyAt, State.setKeyCell]
  · have : j.val ≠ k.val := fun e => h (Fin.ext e.symm)
    simp [State.keyAt, State.setKeyCell, h, this]

@[simp] theorem State.takeFault_halted (r : OutOfRange) : (s.takeFault r).halted = (r.kind != .none) := rfl

/-! ### Reset -/

@[simp] theorem State.init_params (p : Params) : (State.init p).params = p := rfl
@[simp] theorem State.init_mem (p : Params) : (State.init p).mem = [] := rfl
@[simp] theorem State.init_pc (p : Params) : (State.init p).pc = 0x200 := rfl
@[simp] theorem State.init_fault (p : Params) : (State.init p).fault = FaultLatch.clear := rfl
@[simp] theorem State.init_halted (p : Params) : (State.init p).halted = false := rfl

@[simp] theorem State.init_reg (p : Params) (x : Reg) : (State.init p).reg x = 0 := by
  simp [State.reg, State.init]

@[simp] theorem State.init_keyAt (p : Params) (k : Fin 16) : (State.init p).keyAt k = false := by
  simp [State.keyAt, State.init]

end Sys2Proof.Machine
end

