-- ==== Sys2Proof/Laws/Memory.lean ====
section
/-! SUPPORT. The laws of the memory list: read after write, and that every memory operation keeps the canonical form. -/

namespace Sys2Proof.Machine

variable (font : Vector Byte 80)

theorem Memory.read_erase (m : List Host.Cell) (a k : Nat) :
    Memory.read font (Memory.erase m a) k = if k = a then Memory.blank font a else Memory.read font m k := by
  induction m with
  | nil => simp only [Memory.erase, List.filter_nil, Memory.read]; split <;> simp_all
  | cons c rest ih =>
    simp only [Memory.erase] at ih
    by_cases hc : c.1 = a
    · simp only [Memory.erase, List.filter_cons, hc, bne_self_eq_false, Bool.false_eq_true, if_false, ih, Memory.read]
      by_cases hk : k = a
      · simp [hk]
      · simp [hk, Ne.symm hk]
    · have : (c.1 != a) = true := by simp [hc]
      simp only [Memory.erase, List.filter_cons, this, if_true, Memory.read, ih]
      by_cases hck : c.1 = k
      · subst hck; simp [hc]
      · simp [hck]

theorem Memory.read_insert (m : List Host.Cell) (a : Nat) (b : Byte) (k : Nat) :
    Memory.read font (Memory.insert m a b) k = if k = a then b else Memory.read font m k := by
  induction m with
  | nil =>
    by_cases hk : k = a
    · simp [Memory.insert, Memory.read, hk]
    · simp [Memory.insert, Memory.read, hk, Ne.symm hk]
  | cons c rest ih =>
    simp only [Memory.insert]
    split
    · rename_i hlt
      simp only [Memory.read, ih]
      by_cases hck : c.1 = k
      · have : k ≠ a := by omega
        simp [hck, this]
      · simp [hck]
    · split
      · rename_i hca
        by_cases hk : k = a
        · simp [Memory.read, hk]
        · simp [Memory.read, hk, Ne.symm hk, hca]
      · by_cases hk : k = a
        · simp [Memory.read, hk]
        · simp [Memory.read, hk, Ne.symm hk]

/-- Read after write: the byte stored, and every other address as before. -/
theorem Memory.read_write (m : List Host.Cell) (a : Nat) (b : Byte) (k : Nat) :
    Memory.read font (Memory.write font m a b) k = if k = a then b else Memory.read font m k := by
  unfold Memory.write
  split
  · rename_i h
    rw [Memory.read_erase]
    split
    · simp_all
    · rfl
  · exact Memory.read_insert font m a b k

theorem Memory.mem_insert (m : List Host.Cell) (a : Nat) (b : Byte) (c : Host.Cell) :
    c ∈ Memory.insert m a b → c = (a, b) ∨ c ∈ m := by
  induction m with
  | nil => simp [Memory.insert]
  | cons d rest ih =>
    simp only [Memory.insert]
    split
    · intro h
      rcases List.mem_cons.mp h with h | h
      · simp [h]
      · rcases ih h with h | h <;> simp [h]
    · split
      · simp only [List.mem_cons]; tauto
      · simp only [List.mem_cons]; tauto

theorem Memory.insert_rising (m : List Host.Cell) (a : Nat) (b : Byte)
    (h : m.Pairwise (fun c d => c.1 < d.1)) : (Memory.insert m a b).Pairwise (fun c d => c.1 < d.1) := by
  induction m with
  | nil => simp [Memory.insert]
  | cons d rest ih =>
    rw [List.pairwise_cons] at h
    simp only [Memory.insert]
    split
    · rename_i hlt
      rw [List.pairwise_cons]
      refine ⟨fun c hc => ?_, ih h.2⟩
      rcases Memory.mem_insert _ _ _ _ hc with rfl | hc
      · exact hlt
      · exact h.1 c hc
    · split
      · rename_i hda
        rw [List.pairwise_cons]
        exact ⟨fun c hc => hda ▸ h.1 c hc, h.2⟩
      · rename_i hnlt hne
        have had : a < d.1 := by omega
        rw [List.pairwise_cons]
        refine ⟨fun c hc => ?_, List.pairwise_cons.mpr h⟩
        rcases List.mem_cons.mp hc with rfl | hc
        · exact had
        · exact lt_trans had (h.1 c hc)

/-- A write inside the address space keeps the canonical form. -/
theorem Memory.write_wf (m : List Host.Cell) (a : Nat) (b : Byte) (ha : a < 0x1000)
    (h : Memory.wf font m) : Memory.wf font (Memory.write font m a b) := by
  unfold Memory.write
  split
  · exact ⟨h.1.sublist List.filter_sublist, fun c hc => h.2 c (List.mem_of_mem_filter hc)⟩
  · rename_i hb
    refine ⟨Memory.insert_rising m a b h.1, fun c hc => ?_⟩
    rcases Memory.mem_insert _ _ _ _ hc with rfl | hc
    · exact ⟨ha, hb⟩
    · exact h.2 c hc

/-- Two canonical memories that read alike everywhere are the same list. -/
theorem Memory.wf_ext (m n : List Host.Cell) (hm : Memory.wf font m) (hn : Memory.wf font n)
    (h : ∀ a, Memory.read font m a = Memory.read font n a) : m = n := by
  have below : ∀ (l : List Host.Cell) (a : Nat), (∀ c ∈ l, a < c.1) → Memory.read font l a = Memory.blank font a := by
    intro l a
    induction l with
    | nil => intro _; rfl
    | cons c rest ih =>
      intro hl
      have hc := hl c (by simp)
      have : c.1 ≠ a := by omega
      simp only [Memory.read, this, if_false]
      exact ih fun d hd => hl d (by simp [hd])
  induction m generalizing n with
  | nil =>
    cases n with
    | nil => rfl
    | cons d rest =>
      have := h d.1
      simp only [Memory.read, if_true] at this
      exact absurd this.symm (hn.2 d (by simp)).2
  | cons c restm ih =>
    have hcm := List.pairwise_cons.mp hm.1
    cases n with
    | nil =>
      have := h c.1
      simp only [Memory.read, if_true] at this
      exact absurd this (hm.2 c (by simp)).2
    | cons d restn =>
      have hdn := List.pairwise_cons.mp hn.1
      have hcd : c.1 = d.1 := by
        rcases lt_trichotomy c.1 d.1 with hlt | heq | hgt
        · have := h c.1
          rw [below (d :: restn) c.1 (by
            intro e he
            rcases List.mem_cons.mp he with rfl | he
            · exact hlt
            · exact lt_trans hlt (hdn.1 e he))] at this
          simp only [Memory.read, if_true] at this
          exact absurd this (hm.2 c (by simp)).2
        · exact heq
        · have := h d.1
          rw [below (c :: restm) d.1 (by
            intro e he
            rcases List.mem_cons.mp he with rfl | he
            · exact hgt
            · exact lt_trans hgt (hcm.1 e he))] at this
          simp only [Memory.read, if_true] at this
          exact absurd this.symm (hn.2 d (by simp)).2
      have hval : c.2 = d.2 := by
        have := h c.1
        simpa [Memory.read, hcd] using this
      have hrest : restm = restn := by
        refine ih restn ⟨hcm.2, fun e he => hm.2 e (by simp [he])⟩ ⟨hdn.2, fun e he => hn.2 e (by simp [he])⟩ ?_
        intro a
        by_cases ha : a = c.1
        · subst ha
          rw [below restm c.1 hcm.1, below restn c.1 (hcd ▸ hdn.1)]
        · have := h a
          have h1 : c.1 ≠ a := fun e => ha e.symm
          have h2 : d.1 ≠ a := fun e => ha (hcd ▸ e.symm)
          simpa [Memory.read, h1, h2] using this
      rw [hrest, Prod.ext hcd hval]

/-- Read after write, on the state. -/
theorem State.readByte_writeByte (s : State) (e : Nat) (b : Byte) (a : Nat) :
    (s.writeByte e b).readByte a = if a = e then b else s.readByte a :=
  Memory.read_write s.params.font s.mem e b a

/-- A store inside the address space keeps memory canonical. -/
theorem State.writeByte_wf (s : State) (e : Nat) (b : Byte) (he : e < 0x1000) (h : Memory.wf s.params.font s.mem) :
    Memory.wf (s.writeByte e b).params.font (s.writeByte e b).mem :=
  Memory.write_wf s.params.font s.mem e b he h

/-- The memory of a block after INIT is canonical. -/
theorem State.init_memory_wf (p : Params) : Memory.wf (State.init p).params.font (State.init p).mem := by
  simp [Memory.wf]

end Sys2Proof.Machine
end

