-- ==== Sys2Proof/Laws/Ops.lean ====
section
/-! SUPPORT. For each shared operation, one lemma that says everything it can do. -/

namespace Sys2Proof.Machine

variable (s : State)

/-! ### Addresses and bytes -/

theorem State.inReach_of_wrap (a : Nat) (h : s.params.oob = .wrap) : s.inReach a := .inr h

theorem State.not_inReach_iff (a : Nat) : ¬ s.inReach a ↔ 0xFFF < a ∧ s.params.oob = .fault := by
  cases ho : s.params.oob <;> simp [State.inReach, ho]

theorem State.rangeInReach_succ (a n : Nat) :
    s.rangeInReach a (n + 1) ↔ s.inReach a ∧ s.rangeInReach (a + 1) n := by
  by_cases hw : s.params.oob = .wrap
  · simp [State.rangeInReach, State.inReach, hw]
  · simp only [State.rangeInReach, State.inReach, hw, or_false]; omega

theorem State.not_rangeInReach_iff (a n : Nat) :
    ¬ s.rangeInReach a n ↔ 0 < n ∧ 0x1000 < a + n ∧ s.params.oob = .fault := by
  cases ho : s.params.oob with
  | wrap => simp [State.rangeInReach, State.inReach, ho]
  | fault => simp only [State.rangeInReach, State.inReach, ho, reduceCtorEq, or_false, and_true]; omega

/-- The first offending address of a run whose first address is in reach. -/
theorem State.first_out_of_reach (a n : Nat) (h1 : s.inReach a) (h2 : ¬ s.rangeInReach (a + 1) n) :
    max (a + 1) 0x1000 = max a 0x1000 := by
  obtain ⟨-, -, h3⟩ := (s.not_rangeInReach_iff _ _).mp h2
  simp only [State.inReach, h3, reduceCtorEq, or_false] at h1
  omega

theorem State.max_of_not_inReach (a : Nat) (h : ¬ s.inReach a) : max a 0x1000 = a := by
  have := ((s.not_inReach_iff a).mp h).1
  omega

theorem State.effAddr_ok_iff (k : FaultKind) (a e : Nat) :
    s.effAddr k a = .ok e ↔ s.inReach a ∧ e = a % 0x1000 := by
  unfold State.effAddr State.inReach
  by_cases h : a ≤ 0xFFF
  · have : a % 0x1000 = a := Nat.mod_eq_of_lt (by omega)
    simp [h, this, eq_comm]
  · cases ho : s.params.oob with
    | fault => simp [h]
    | wrap => simp [h, eq_comm]

theorem State.effAddr_error_iff (k : FaultKind) (a : Nat) (r : OutOfRange) :
    s.effAddr k a = .error r ↔ ¬ s.inReach a ∧ r = ⟨k, a⟩ := by
  unfold State.effAddr State.inReach
  by_cases h : a ≤ 0xFFF
  · simp [h]
  · cases ho : s.params.oob with
    | fault => simp [h, eq_comm]
    | wrap => simp [h]

theorem State.memRead_ok_iff (k : FaultKind) (a : Nat) (b : Byte) :
    s.memRead k a = .ok b ↔ s.inReach a ∧ b = s.readByte (a % 0x1000) := by
  unfold State.memRead
  split
  · rename_i e he
    obtain ⟨h1, rfl⟩ := (s.effAddr_ok_iff k a e).mp he
    simp only [Except.ok.injEq, h1, true_and]; exact eq_comm
  · rename_i r hr
    simp [((s.effAddr_error_iff k a r).mp hr).1]

theorem State.memRead_error_iff (k : FaultKind) (a : Nat) (r : OutOfRange) :
    s.memRead k a = .error r ↔ ¬ s.inReach a ∧ r = ⟨k, a⟩ := by
  unfold State.memRead
  split
  · rename_i e he
    simp [((s.effAddr_ok_iff k a e).mp he).1]
  · rename_i r' hr
    obtain ⟨h1, rfl⟩ := (s.effAddr_error_iff k a r').mp hr
    simp only [Except.error.injEq, h1, not_false_eq_true, true_and]; exact eq_comm

theorem State.memWrite_ok_iff (a : Nat) (b : Byte) (t : State) :
    s.memWrite a b = .ok t ↔ s.inReach a ∧ t = s.writeByte (a % 0x1000) b := by
  unfold State.memWrite
  split
  · rename_i e he
    obtain ⟨h1, rfl⟩ := (s.effAddr_ok_iff .write a e).mp he
    simp only [Except.ok.injEq, h1, true_and]; exact eq_comm
  · rename_i r hr
    simp [((s.effAddr_error_iff .write a r).mp hr).1]

theorem State.memWrite_error_iff (a : Nat) (b : Byte) (r : OutOfRange) :
    s.memWrite a b = .error r ↔ ¬ s.inReach a ∧ r = ⟨.write, a⟩ := by
  unfold State.memWrite
  split
  · rename_i e he
    simp [((s.effAddr_ok_iff .write a e).mp he).1]
  · rename_i r' hr
    obtain ⟨h1, rfl⟩ := (s.effAddr_error_iff .write a r').mp hr
    simp only [Except.error.injEq, h1, not_false_eq_true, true_and]; exact eq_comm

/-- A run of reads succeeds exactly when its last address is in reach, and gives the bytes in order. -/
theorem State.readBytes_ok_iff (n a : Nat) (bs : List Byte) :
    s.readBytes a n = .ok bs ↔
      s.rangeInReach a n ∧ bs = (List.range n).map (fun k => s.readByte ((a + k) % 0x1000)) := by
  induction n generalizing a bs with
  | zero => simp [State.readBytes, State.rangeInReach, eq_comm]
  | succ n ih =>
    have hmap : (List.range (n + 1)).map (fun k => s.readByte ((a + k) % 0x1000)) =
        s.readByte (a % 0x1000) :: (List.range n).map (fun k => s.readByte ((a + 1 + k) % 0x1000)) := by
      rw [List.range_succ_eq_map, List.map_cons, List.map_map, Nat.add_zero]
      congr 1
      refine List.map_congr_left fun k _ => ?_
      simp only [Function.comp_apply, Nat.succ_eq_add_one]
      rw [show a + (k + 1) = a + 1 + k by omega]
    rw [hmap, State.rangeInReach_succ]
    simp only [State.readBytes]
    split
    · rename_i r hr
      simp [((s.memRead_error_iff .read a r).mp hr).1]
    · rename_i b hb
      obtain ⟨h1, rfl⟩ := (s.memRead_ok_iff .read a b).mp hb
      split
      · rename_i r hr
        have hno : ¬ s.rangeInReach (a + 1) n := fun h => by
          rw [(ih (a + 1) _).mpr ⟨h, rfl⟩] at hr
          exact absurd hr (by simp)
        simp [hno]
      · rename_i bs' hbs
        obtain ⟨h2, rfl⟩ := (ih (a + 1) _).mp hbs
        simp only [h1, h2, Except.ok.injEq, true_and]
        exact eq_comm

/-- A run of reads faults exactly when its last address is out of reach, and reports the first offending address. -/
theorem State.readBytes_error_iff (n a : Nat) (r : OutOfRange) :
    s.readBytes a n = .error r ↔ ¬ s.rangeInReach a n ∧ r = ⟨.read, max a 0x1000⟩ := by
  induction n generalizing a r with
  | zero => simp [State.readBytes, State.rangeInReach]
  | succ n ih =>
    rw [State.rangeInReach_succ]
    simp only [State.readBytes]
    split
    · rename_i r' hr
      obtain ⟨h1, rfl⟩ := (s.memRead_error_iff .read a r').mp hr
      simp [h1, s.max_of_not_inReach a h1, eq_comm]
    · rename_i b hb
      obtain ⟨h1, rfl⟩ := (s.memRead_ok_iff .read a b).mp hb
      split
      · rename_i r' hr
        obtain ⟨h2, rfl⟩ := (ih (a + 1) r').mp hr
        simp [h2, s.first_out_of_reach a n h1 h2, eq_comm]
      · rename_i bs hbs
        simp [h1, ((s.readBytes_ok_iff n (a + 1) bs).mp hbs).1]

/-- A run of writes faults exactly when its last address is out of reach, and reports the first offending address. -/
theorem State.writeBytes_error_iff (bs : List Byte) (a : Nat) (r : OutOfRange) :
    State.writeBytes bs a s = .error r ↔ ¬ s.rangeInReach a bs.length ∧ r = ⟨.write, max a 0x1000⟩ := by
  induction bs generalizing a s with
  | nil => simp [State.writeBytes, State.rangeInReach]
  | cons b bs ih =>
    rw [List.length_cons, State.rangeInReach_succ]
    simp only [State.writeBytes]
    split
    · rename_i r' hr
      obtain ⟨h1, rfl⟩ := (s.memWrite_error_iff a b r').mp hr
      simp [h1, s.max_of_not_inReach a h1, eq_comm]
    · rename_i t ht
      obtain ⟨h1, rfl⟩ := (s.memWrite_ok_iff a b t).mp ht
      rw [ih]
      have hp : (s.writeByte (a % 0x1000) b).rangeInReach (a + 1) bs.length ↔ s.rangeInReach (a + 1) bs.length := Iff.rfl
      rw [hp]
      by_cases h2 : s.rangeInReach (a + 1) bs.length
      · simp [h1, h2]
      · simp [h2, s.first_out_of_reach a _ h1 h2]

/-- What a run of writes leaves: only memory differs, every address outside the run reads as before, the run holds the
bytes, and the canonical form is kept. -/
theorem State.writeBytes_ok (bs : List Byte) (a : Nat) (t : State) (h : State.writeBytes bs a s = .ok t) :
    t = { s with mem := t.mem } ∧
    (∀ e, (∀ k < bs.length, e ≠ (a + k) % 0x1000) → t.readByte e = s.readByte e) ∧
    (bs.length ≤ 0x1000 → ∀ k (hk : k < bs.length), t.readByte ((a + k) % 0x1000) = bs[k]) ∧
    (Memory.wf s.params.font s.mem → Memory.wf t.params.font t.mem) := by
  induction bs generalizing a s with
  | nil =>
    simp only [State.writeBytes, Except.ok.injEq] at h
    subst h
    simp
  | cons b bs ih =>
    simp only [State.writeBytes] at h
    split at h
    · exact absurd h (by simp)
    · rename_i t' ht
      obtain ⟨h1, rfl⟩ := (s.memWrite_ok_iff a b t').mp ht
      obtain ⟨f1, f2, f3, f4⟩ := ih (s.writeByte (a % 0x1000) b) (a + 1) h
      refine ⟨?_, ?_, ?_, ?_⟩
      · rw [f1]; rfl
      · intro e he
        rw [f2 e fun k hk => by
            have := he (k + 1) (by simp only [List.length_cons]; omega)
            rwa [show a + 1 + k = a + (k + 1) by omega],
          State.readByte_writeByte, if_neg (show e ≠ a % 0x1000 from he 0 (by simp))]
      · intro hlen k hk
        simp only [List.length_cons] at hlen hk
        cases k with
        | zero =>
          rw [Nat.add_zero, f2 (a % 0x1000) (fun j hj => by omega), State.readByte_writeByte, if_pos rfl]
          rfl
        | succ k =>
          have := f3 (by omega) k (by omega)
          rw [show a + (k + 1) = a + 1 + k by omega, this]
          rfl
      · intro hwf
        exact f4 (State.writeByte_wf s (a % 0x1000) b (Nat.mod_lt _ (by decide)) hwf)

theorem State.writeBytes_reaches (bs : List Byte) (a : Nat) (h : s.rangeInReach a bs.length) :
    ∃ t, State.writeBytes bs a s = .ok t := by
  cases hw : State.writeBytes bs a s with
  | ok t => exact ⟨t, rfl⟩
  | error r => exact absurd h ((s.writeBytes_error_iff bs a r).mp hw).1

/-- Loading registers: only `V` differs; V from `k` on holds the bytes and the rest is as before. -/
theorem State.setRegs_eq (bs : List Byte) (k : Nat) (hk : k + bs.length ≤ 16) :
    State.setRegs bs k s = { s with v := (State.setRegs bs k s).v } ∧
    ∀ y : Reg, (State.setRegs bs k s).reg y =
      if h : k ≤ y.val ∧ y.val < k + bs.length then bs[y.val - k]'(by omega) else s.reg y := by
  induction bs generalizing k s with
  | nil =>
    refine ⟨rfl, fun y => ?_⟩
    have : ¬ (k ≤ y.val ∧ y.val < k + ([] : List Byte).length) := by simp
    simp [State.setRegs]
  | cons b bs ih =>
    simp only [List.length_cons] at hk
    obtain ⟨f1, f2⟩ := ih (s.setReg (Fin.ofNat 16 k) b) (k + 1) (by omega)
    refine ⟨?_, fun y => ?_⟩
    · simp only [State.setRegs]; rw [f1]; rfl
    · simp only [State.setRegs, f2 y, State.setReg_reg, List.length_cons]
      have hkv : (Fin.ofNat 16 k).val = k := Nat.mod_eq_of_lt (by omega)
      by_cases hy : y.val = k
      · have e : y = Fin.ofNat 16 k := Fin.ext (by rw [hkv, hy])
        have h1 : ¬ (k + 1 ≤ y.val ∧ y.val < k + 1 + bs.length) := by omega
        have h2 : k ≤ y.val ∧ y.val < k + (bs.length + 1) := by omega
        rw [dif_neg h1, if_pos e, dif_pos h2]
        simp [hy]
      · have e : y ≠ Fin.ofNat 16 k := fun h => hy (by rw [h, hkv])
        by_cases h1 : k + 1 ≤ y.val ∧ y.val < k + 1 + bs.length
        · have h2 : k ≤ y.val ∧ y.val < k + (bs.length + 1) := by omega
          rw [dif_pos h1, dif_pos h2]
          have : y.val - k = (y.val - (k + 1)) + 1 := by omega
          simp only [this, List.getElem_cons_succ]
        · have h2 : ¬ (k ≤ y.val ∧ y.val < k + (bs.length + 1)) := by omega
          rw [dif_neg h1, dif_neg h2, if_neg e]

theorem State.regsUpTo_length (x : Reg) : (s.regsUpTo x).length = x.val + 1 := by
  simp [State.regsUpTo]

theorem State.regsUpTo_getElem (x : Reg) (k : Nat) (hk : k < (s.regsUpTo x).length) (hk' : k < 16) :
    (s.regsUpTo x)[k] = s.reg ⟨k, hk'⟩ := by
  simp [State.regsUpTo]

/-! ### Fetch -/

theorem State.fetch_ok_iff (w : Word) :
    s.fetch = .ok w ↔ s.rangeInReach s.pc.toNat 2 ∧
      w = wordOfBytes (s.readByte (s.pc.toNat % 0x1000)) (s.readByte ((s.pc.toNat + 1) % 0x1000)) := by
  have hr1 : s.rangeInReach (s.pc.toNat + 1) 1 ↔ s.inReach (s.pc.toNat + 1) := by simp [State.rangeInReach]
  rw [State.rangeInReach_succ, hr1]
  unfold State.fetch
  split
  · rename_i r hr
    simp [((s.memRead_error_iff .fetch _ r).mp hr).1]
  · rename_i hi hhi
    obtain ⟨h1, rfl⟩ := (s.memRead_ok_iff .fetch _ hi).mp hhi
    split
    · rename_i r hr
      simp [((s.memRead_error_iff .fetch _ r).mp hr).1]
    · rename_i lo hlo
      obtain ⟨h2, rfl⟩ := (s.memRead_ok_iff .fetch _ lo).mp hlo
      simp only [h1, h2, Except.ok.injEq, true_and]
      exact eq_comm

theorem State.fetch_error_iff (r : OutOfRange) :
    s.fetch = .error r ↔ ¬ s.rangeInReach s.pc.toNat 2 ∧ r = ⟨.fetch, max s.pc.toNat 0x1000⟩ := by
  have hr1 : s.rangeInReach (s.pc.toNat + 1) 1 ↔ s.inReach (s.pc.toNat + 1) := by simp [State.rangeInReach]
  rw [State.rangeInReach_succ, hr1]
  unfold State.fetch
  split
  · rename_i r' hr
    obtain ⟨h1, rfl⟩ := (s.memRead_error_iff .fetch _ r').mp hr
    simp [h1, s.max_of_not_inReach _ h1, eq_comm]
  · rename_i hi hhi
    obtain ⟨h1, rfl⟩ := (s.memRead_ok_iff .fetch _ hi).mp hhi
    split
    · rename_i r' hr
      obtain ⟨h2, rfl⟩ := (s.memRead_error_iff .fetch _ r').mp hr
      have hm := s.first_out_of_reach s.pc.toNat 1 h1 (fun h => h2 (hr1.mp h))
      rw [s.max_of_not_inReach _ h2] at hm
      simp [h2, ← hm, eq_comm]
    · rename_i lo hlo
      simp [h1, ((s.memRead_ok_iff .fetch _ lo).mp hlo).1]

/-! ### The stack and the keypad -/

theorem State.push_cases :
    (∃ h : s.sp.val < 16, s.push =
      .ok { s with stack := s.stack.set s.sp.val s.pc h, sp := ⟨s.sp.val + 1, by omega⟩ }) ∨
    (s.sp.val = 16 ∧ s.push = .error ⟨.stackOverflow, 16⟩) := by
  by_cases h : s.sp.val < 16
  · exact .inl ⟨h, by simp [State.push, h]⟩
  · exact .inr ⟨by omega, by simp [State.push, h]⟩

theorem State.pop_cases :
    (s.sp.val = 0 ∧ s.pop = .error ⟨.stackUnderflow, 0⟩) ∨
    (∃ _ : s.sp.val ≠ 0, s.pop = .ok (s.stack[s.sp.val - 1], { s with sp := ⟨s.sp.val - 1, by omega⟩ })) := by
  by_cases h : s.sp.val = 0
  · exact .inl ⟨h, by simp [State.pop, h]⟩
  · exact .inr ⟨h, by simp [State.pop, h]⟩

/-- `KeyIndex`: the low nibble, when the value is a key or the block masks it; else the fault. -/
theorem State.keyIndex_cases (b : Byte) :
    ((b.toNat ≤ 0xF ∨ s.params.oob = .wrap) ∧ s.keyIndex b = .ok ⟨b.toNat % 16, Nat.mod_lt _ (by decide)⟩) ∨
    ((0xF < b.toNat ∧ s.params.oob = .fault) ∧ s.keyIndex b = .error ⟨.key, b.toNat⟩) := by
  unfold State.keyIndex
  by_cases h : b.toNat ≤ 0xF
  · left
    refine ⟨.inl h, ?_⟩
    have : b.toNat % 16 = b.toNat := Nat.mod_eq_of_lt (by omega)
    simp [h, this]
  · cases ho : s.params.oob with
    | fault => right; simp [h]; omega
    | wrap => left; simp [h]

theorem State.lowestKey_some_iff (k : Fin 16) :
    s.lowestKey = some k ↔ s.keyAt k = true ∧ ∀ j < k, s.keyAt j = false := by
  unfold State.lowestKey
  rw [List.find?_eq_some_iff_getElem]
  constructor
  · rintro ⟨h1, i, hi, h2, h3⟩
    simp only [List.length_finRange] at hi
    refine ⟨h1, fun j hj => ?_⟩
    have hik : (⟨i, hi⟩ : Fin 16) = k := by simpa using h2
    have := h3 j.val (by rw [← hik] at hj; exact hj)
    simpa using this
  · rintro ⟨h1, h2⟩
    refine ⟨h1, k.val, by simp, by simp, fun j hj => ?_⟩
    have := h2 ⟨j, by omega⟩ hj
    simp [this]

theorem State.lowestKey_none_iff : s.lowestKey = none ↔ ∀ k, s.keyAt k = false := by
  unfold State.lowestKey
  simp [List.find?_eq_none]

/-! ### The ends of an instruction and of a step -/

theorem complete_ok (t : State) : complete s (.ok t) = .next t := rfl

theorem complete_error (r : OutOfRange) : complete s (.error r) = .next (s.takeFault r) := rfl

/-- `complete` always answers a next state: the instruction's own, or the fault's. -/
theorem complete_next_iff (e : Except OutOfRange State) (t : State) :
    complete s e = .next t ↔ e = .ok t ∨ ∃ r, e = .error r ∧ t = s.takeFault r := by
  cases e with
  | ok u => simp [complete]
  | error r => simp only [complete, Host.Outcome.next.injEq, reduceCtorEq, Except.error.injEq, false_or]
               constructor
               · rintro rfl; exact ⟨r, rfl, rfl⟩
               · rintro ⟨r', rfl, rfl⟩; rfl

theorem tickDown_toNat (b : Byte) : (tickDown b).toNat = b.toNat - 1 := by
  unfold tickDown
  split
  · rw [BitVec.toNat_ofNat]; omega
  · simp; omega

theorem State.endStep_halted (h : s.halted = true) : s.endStep = s := by simp [State.endStep, h]

theorem State.endStep_running (h : s.halted = false) : s.endStep = s.tick.nextRnd := by simp [State.endStep, h]

theorem State.halted_iff : s.halted = true ↔ s.fault.kind ≠ .none := by simp [State.halted]

theorem State.not_halted_iff : s.halted = false ↔ s.fault.kind = .none := by simp [State.halted]

theorem step_halted (h : s.halted = true) : step s = .next s := by simp [step, h]

/-- Everything a step can do. -/
theorem step_cases :
    (s.halted = true ∧ step s = .next s) ∨
    (s.halted = false ∧ ¬ s.rangeInReach s.pc.toNat 2 ∧
      step s = .next (s.takeFault ⟨.fetch, max s.pc.toNat 0x1000⟩)) ∨
    (s.halted = false ∧ s.rangeInReach s.pc.toNat 2 ∧
      step s = finishStep (exec (decodeWord (wordOfBytes (s.readByte (s.pc.toNat % 0x1000))
        (s.readByte ((s.pc.toNat + 1) % 0x1000)))) s)) := by
  by_cases hh : s.halted = true
  · exact .inl ⟨hh, step_halted s hh⟩
  · have hf : s.halted = false := by simpa using hh
    right
    cases hw : s.fetch with
    | error r =>
      obtain ⟨h1, rfl⟩ := (s.fetch_error_iff r).mp hw
      exact .inl ⟨hf, h1, by simp [step, hf, hw]⟩
    | ok w =>
      obtain ⟨h1, rfl⟩ := (s.fetch_ok_iff w).mp hw
      exact .inr ⟨hf, h1, by simp [step, hf, hw]⟩

end Sys2Proof.Machine
end

