-- ==== Sys2Proof/Laws/Display.lean ====
section
/-! SUPPORT. The sprite blit as one statement about cells: which cells it flips, each once, and when it collides. -/

namespace Sys2Proof.Machine

theorem pixelIndex_lt (cx cy row col : Nat) : pixelIndex cx cy row col < 2048 := by
  unfold pixelIndex; omega

theorem Canvas.flip_pixel (c : Canvas) (k j : Nat) (hk : k < 2048) :
    (c.flip k).fb.getLsbD j = (c.fb.getLsbD j ^^ decide (j = k)) := by
  simp only [Canvas.flip, BitVec.getLsbD_xor, BitVec.getLsbD_twoPow]
  by_cases h : k = j
  · subst h; simp [hk]
  · simp [h, Ne.symm h]

/-- Flipping a list of distinct cells flips exactly those, and collides when one of them was set. -/
theorem Canvas.flips (l : List Nat) (hnd : l.Nodup) (hlt : ∀ k ∈ l, k < 2048) (c : Canvas) :
    (∀ j, (l.foldl Canvas.flip c).fb.getLsbD j = (c.fb.getLsbD j ^^ decide (j ∈ l))) ∧
    (l.foldl Canvas.flip c).hit = (c.hit || l.any (fun k => c.fb.getLsbD k)) := by
  induction l generalizing c with
  | nil => simp
  | cons k l ih =>
    obtain ⟨hk, hnd⟩ := List.nodup_cons.mp hnd
    have hk2 := hlt k (by simp)
    obtain ⟨f1, f2⟩ := ih hnd (fun j hj => hlt j (by simp [hj])) (c.flip k)
    refine ⟨fun j => ?_, ?_⟩
    · rw [List.foldl_cons, f1, Canvas.flip_pixel c k j hk2]
      by_cases hj : j = k
      · subst hj; simp [hk]
      · simp [hj]
    · rw [List.foldl_cons, f2, List.any_cons]
      have : l.any (fun j => (c.flip k).fb.getLsbD j) = l.any (fun j => c.fb.getLsbD j) := by
        rw [Bool.eq_iff_iff, List.any_eq_true, List.any_eq_true]
        refine exists_congr fun j => and_congr_right fun hj => ?_
        have hjk : j ≠ k := fun e => hk (e ▸ hj)
        simp [Canvas.flip_pixel c k j hk2, hjk]
      rw [this]
      simp [Canvas.flip, Bool.or_assoc]

/-- The cells a sprite's set bits name, in drawing order. -/
def spriteCells (cx cy : Nat) : Nat → List Byte → List Nat
  | _, [] => []
  | row, b :: bs =>
    ((List.range 8).filter (fun col => b.getLsbD (7 - col))).map (pixelIndex cx cy row) ++ spriteCells cx cy (row + 1) bs

theorem Canvas.drawRow_eq (cx cy row : Nat) (b : Byte) (c : Canvas) :
    c.drawRow cx cy row b =
      (((List.range 8).filter (fun col => b.getLsbD (7 - col))).map (pixelIndex cx cy row)).foldl Canvas.flip c := by
  rw [List.foldl_map, List.foldl_filter]
  rfl

theorem Canvas.drawRows_eq (cx cy : Nat) (bs : List Byte) (row : Nat) (c : Canvas) :
    Canvas.drawRows cx cy row bs c = (spriteCells cx cy row bs).foldl Canvas.flip c := by
  induction bs generalizing row c with
  | nil => rfl
  | cons b bs ih => rw [Canvas.drawRows, ih, spriteCells, List.foldl_append, Canvas.drawRow_eq]

theorem mem_spriteCells (cx cy : Nat) (bs : List Byte) (row k : Nat) :
    k ∈ spriteCells cx cy row bs ↔
      ∃ r, ∃ hr : r < bs.length, ∃ col < 8, bs[r].getLsbD (7 - col) = true ∧ k = pixelIndex cx cy (row + r) col := by
  induction bs generalizing row with
  | nil => simp [spriteCells]
  | cons b bs ih =>
    simp only [spriteCells, List.mem_append, List.mem_map, List.mem_filter, List.mem_range, ih]
    constructor
    · rintro (⟨col, ⟨h1, h2⟩, rfl⟩ | ⟨r, hr, col, h1, h2, rfl⟩)
      · exact ⟨0, by simp, col, h1, h2, rfl⟩
      · exact ⟨r + 1, by simpa using hr, col, h1, h2, by rw [Nat.add_assoc, Nat.add_comm 1 r]⟩
    · rintro ⟨r, hr, col, h1, h2, rfl⟩
      cases r with
      | zero => exact .inl ⟨col, ⟨h1, h2⟩, rfl⟩
      | succ r => exact .inr ⟨r, by simpa using hr, col, h1, h2, by rw [Nat.add_assoc row 1 r, Nat.add_comm 1 r]⟩

/-- Two pixels of a sprite of at most 32 rows never share a cell (45_display.md R171). -/
theorem pixelIndex_inj (cx cy r r' c c' : Nat) (hr : r < r' + 32) (hr' : r' < r + 32) (hc : c < 8) (hc' : c' < 8)
    (h : pixelIndex cx cy r c = pixelIndex cx cy r' c') : r = r' ∧ c = c' := by
  unfold pixelIndex at h
  omega

theorem spriteCells_nodup (cx cy : Nat) (bs : List Byte) (row : Nat) (hlen : bs.length ≤ 32) :
    (spriteCells cx cy row bs).Nodup := by
  induction bs generalizing row with
  | nil => simp [spriteCells]
  | cons b bs ih =>
    simp only [List.length_cons] at hlen
    rw [spriteCells, List.nodup_append]
    refine ⟨?_, ih (row + 1) (by omega), ?_⟩
    · refine List.Nodup.map_on (fun c hc c' hc' h => ?_) (List.nodup_range.filter _)
      simp only [List.mem_filter, List.mem_range] at hc hc'
      exact (pixelIndex_inj cx cy row row c c' (by omega) (by omega) hc.1 hc'.1 h).2
    · intro a ha k hk e
      subst e
      simp only [List.mem_map, List.mem_filter, List.mem_range] at ha
      obtain ⟨c, ⟨hc, -⟩, rfl⟩ := ha
      obtain ⟨r, hr, c', hc', -, h⟩ := (mem_spriteCells cx cy bs (row + 1) _).mp hk
      have := (pixelIndex_inj cx cy row (row + 1 + r) c c' (by omega) (by omega) hc hc' h).1
      omega

/-- The whole blit: the cells of the sprite's set bits flip, every other cell stays, and the collision flag says whether
one of them was set. -/
theorem Canvas.drawRows_cells (cx cy : Nat) (bs : List Byte) (hlen : bs.length ≤ 32) (fb : BitVec 2048) :
    (∀ j, (Canvas.drawRows cx cy 0 bs ⟨fb, false⟩).fb.getLsbD j =
      (fb.getLsbD j ^^ decide (j ∈ spriteCells cx cy 0 bs))) ∧
    (Canvas.drawRows cx cy 0 bs ⟨fb, false⟩).hit = (spriteCells cx cy 0 bs).any (fun k => fb.getLsbD k) := by
  have hlt : ∀ k ∈ spriteCells cx cy 0 bs, k < 2048 := fun k hk => by
    obtain ⟨r, hr, c, hc, -, rfl⟩ := (mem_spriteCells cx cy bs 0 k).mp hk
    exact pixelIndex_lt _ _ _ _
  have := Canvas.flips (spriteCells cx cy 0 bs) (spriteCells_nodup cx cy bs 0 hlen) hlt ⟨fb, false⟩
  rw [Canvas.drawRows_eq]
  simpa using this

end Sys2Proof.Machine
end

