-- ==== Sys2Proof/Laws/Frame.lean ====
section
/-! SUPPORT. What each shared operation leaves unchanged, as a ChangesOnly lemma, and how such lemmas compose. -/

namespace Sys2Proof.Machine

variable (s : State)

theorem ChangesOnly.refl (may : StatePart → Prop) : ChangesOnly may s s := by
  intro p _
  cases p <;> simp [StatePart.same]

theorem ChangesOnly.trans {may : StatePart → Prop} {s t u : State} (h : ChangesOnly may s t) (h' : ChangesOnly may t u) :
    ChangesOnly may s u := by
  intro p hp
  have a := h p hp
  have b := h' p hp
  cases p <;> simp only [StatePart.same] at * <;> first | exact b.trans a | exact ⟨b.1.trans a.1, b.2.trans a.2⟩

theorem ChangesOnly.mono {may may' : StatePart → Prop} {s t : State} (h : ChangesOnly may s t)
    (hm : ∀ p, may p → may' p) : ChangesOnly may' s t := fun p hp => h p fun hq => hp (hm p hq)

theorem changes_jumpTo (w : Word) : ChangesOnly (fun p => p = .pc) s (s.jumpTo w) := by
  intro p hp
  cases p <;> simp_all [StatePart.same]

theorem changes_advance : ChangesOnly (fun p => p = .pc) s s.advance := changes_jumpTo s _

theorem changes_skipIf (b : Bool) : ChangesOnly (fun p => p = .pc) s (s.skipIf b) := changes_jumpTo s _

theorem changes_setReg (x : Reg) (b : Byte) : ChangesOnly (fun p => p = .reg x) s (s.setReg x b) := by
  intro p hp
  cases p with
  | reg y => simp only [StatePart.reg.injEq] at hp; simp [StatePart.same, State.setReg_reg, hp]
  | _ => simp [StatePart.same]

theorem changes_setIndex (w : Word) : ChangesOnly (fun p => p = .index) s (s.setIndex w) := by
  intro p hp
  cases p <;> simp_all [StatePart.same]

theorem changes_setKeyCell (k : Fin 16) (b : Bool) : ChangesOnly (fun p => p = .key k) s (s.setKeyCell k b) := by
  intro p hp
  cases p with
  | key j => simp only [StatePart.key.injEq] at hp; simp [StatePart.same, State.setKeyCell_keyAt, hp]
  | _ => simp [StatePart.same]

theorem changes_display (fb : BitVec 2048) (r : Bool) :
    ChangesOnly (fun p => p = .redraw ∨ ∃ k, p = .pixel k) s { s with fb := fb, redraw := r } := by
  intro p hp
  cases p with
  | pixel k => exact absurd (.inr ⟨k, rfl⟩) hp
  | redraw => exact absurd (.inl rfl) hp
  | _ => simp only [StatePart.same] <;> first | rfl | simp

/-- A run of writes changes its own bytes alone. -/
theorem changes_writeBytes (bs : List Byte) (a : Nat) (t : State) (h : State.writeBytes bs a s = .ok t) :
    ChangesOnly (fun p => ∃ k < bs.length, p = .byte ((a + k) % 0x1000)) s t := by
  obtain ⟨h1, h2, -, -⟩ := s.writeBytes_ok bs a t h
  intro p hp
  cases p with
  | byte e => exact h2 e fun k hk he => hp ⟨k, hk, by rw [he]⟩
  | _ => rw [h1]; simp only [StatePart.same] <;> first | rfl | simp

/-- A run of register loads changes its own registers alone. -/
theorem changes_setRegs (bs : List Byte) (k : Nat) (hk : k + bs.length ≤ 16) :
    ChangesOnly (fun p => ∃ x : Reg, k ≤ x.val ∧ x.val < k + bs.length ∧ p = .reg x) s (State.setRegs bs k s) := by
  obtain ⟨h1, h2⟩ := s.setRegs_eq bs k hk
  intro p hp
  cases p with
  | reg x =>
    have : ¬ (k ≤ x.val ∧ x.val < k + bs.length) := fun h => hp ⟨x, h.1, h.2, rfl⟩
    simp only [StatePart.same]
    rw [h2 x, dif_neg this]
  | _ => rw [h1]; simp only [StatePart.same] <;> first | rfl | simp

end Sys2Proof.Machine
end

