-- ==== Sys2Proof/Laws/Exec.lean ====
section
/-! SUPPORT. For each instruction that can fault or wait, everything it can do, said once; the rest answer a next state
by definition. -/

namespace Sys2Proof.Machine

variable (s : State)

theorem execRet_cases :
    (s.sp.val = 0 ∧ execRet s = .next (s.takeFault ⟨.stackUnderflow, 0⟩)) ∨
    (∃ _ : s.sp.val ≠ 0, execRet s =
      .next { s with sp := ⟨s.sp.val - 1, by omega⟩, pc := wrap16 (s.stack[s.sp.val - 1].toNat + 2) }) := by
  rcases s.pop_cases with ⟨h, e⟩ | ⟨h, e⟩
  · exact .inl ⟨h, by simp [execRet, e, complete]⟩
  · exact .inr ⟨h, by simp [execRet, e, complete, State.jumpTo]⟩

theorem execCall_cases (nnn : Addr) :
    (∃ h : s.sp.val < 16, execCall nnn s =
      .next { s with stack := s.stack.set s.sp.val s.pc h, sp := ⟨s.sp.val + 1, by omega⟩, pc := addrImm nnn }) ∨
    (s.sp.val = 16 ∧ execCall nnn s = .next (s.takeFault ⟨.stackOverflow, 16⟩)) := by
  rcases s.push_cases with ⟨h, e⟩ | ⟨h, e⟩
  · exact .inl ⟨h, by simp [execCall, e, complete, State.jumpTo]⟩
  · exact .inr ⟨h, by simp [execCall, e, complete]⟩

theorem execSkp_cases (x : Reg) :
    (((s.reg x).toNat ≤ 0xF ∨ s.params.oob = .wrap) ∧ execSkp x s =
      .next (s.skipIf (s.keyAt ⟨(s.reg x).toNat % 16, Nat.mod_lt _ (by decide)⟩))) ∨
    ((0xF < (s.reg x).toNat ∧ s.params.oob = .fault) ∧ execSkp x s = .next (s.takeFault ⟨.key, (s.reg x).toNat⟩)) := by
  rcases s.keyIndex_cases (s.reg x) with ⟨h, e⟩ | ⟨h, e⟩
  · exact .inl ⟨h, by simp [execSkp, e, complete]⟩
  · exact .inr ⟨h, by simp [execSkp, e, complete]⟩

theorem execSknp_cases (x : Reg) :
    (((s.reg x).toNat ≤ 0xF ∨ s.params.oob = .wrap) ∧
      ∃ k : Fin 16, k.val = (s.reg x).toNat % 16 ∧
        execSknp x s = .next (if s.keyAt k then (s.setKeyCell k false).advance else s.skipIf true)) ∨
    ((0xF < (s.reg x).toNat ∧ s.params.oob = .fault) ∧ execSknp x s = .next (s.takeFault ⟨.key, (s.reg x).toNat⟩)) := by
  rcases s.keyIndex_cases (s.reg x) with ⟨h, e⟩ | ⟨h, e⟩
  · exact .inl ⟨h, ⟨(s.reg x).toNat % 16, Nat.mod_lt _ (by decide)⟩, rfl, by simp only [execSknp, e, complete]⟩
  · exact .inr ⟨h, by simp [execSknp, e, complete]⟩

theorem execLdK_cases (x : Reg) :
    (∃ k, s.lowestKey = some k ∧
      execLdK x s = .next ((s.setReg x (wrap8 k.val)).setKeyCell k false).advance) ∨
    (s.lowestKey = none ∧ execLdK x s = .next s) := by
  cases h : s.lowestKey with
  | some k => exact .inl ⟨k, rfl, by simp [execLdK, h]⟩
  | none => exact .inr ⟨rfl, by simp [execLdK, h]⟩

theorem storeAtIndex_cases (bs : List Byte) :
    (s.rangeInReach s.i.toNat bs.length ∧
      ∃ t, State.writeBytes bs s.i.toNat s = .ok t ∧ complete s (s.storeAtIndex bs) = .next t.advance) ∨
    (¬ s.rangeInReach s.i.toNat bs.length ∧
      complete s (s.storeAtIndex bs) = .next (s.takeFault ⟨.write, max s.i.toNat 0x1000⟩)) := by
  by_cases h : s.rangeInReach s.i.toNat bs.length
  · obtain ⟨t, ht⟩ := s.writeBytes_reaches bs s.i.toNat h
    exact .inl ⟨h, t, ht, by simp [State.storeAtIndex, State.dataAddr, ht, complete]⟩
  · have e := (s.writeBytes_error_iff bs s.i.toNat _).mpr ⟨h, rfl⟩
    exact .inr ⟨h, by simp [State.storeAtIndex, State.dataAddr, e, complete]⟩

theorem execLdVMem_cases (x : Reg) :
    (s.rangeInReach s.i.toNat (x.val + 1) ∧ execLdVMem x s =
      .next (State.setRegs ((List.range (x.val + 1)).map (fun k => s.readByte ((s.i.toNat + k) % 0x1000))) 0 s).advance) ∨
    (¬ s.rangeInReach s.i.toNat (x.val + 1) ∧
      execLdVMem x s = .next (s.takeFault ⟨.read, max s.i.toNat 0x1000⟩)) := by
  by_cases h : s.rangeInReach s.i.toNat (x.val + 1)
  · have e := (s.readBytes_ok_iff (x.val + 1) s.i.toNat _).mpr ⟨h, rfl⟩
    exact .inl ⟨h, by simp only [execLdVMem, State.dataAddr, Nat.add_zero, e, complete]⟩
  · have e := (s.readBytes_error_iff (x.val + 1) s.i.toNat _).mpr ⟨h, rfl⟩
    exact .inr ⟨h, by simp only [execLdVMem, State.dataAddr, Nat.add_zero, e, complete]⟩

/-- The canvas a Dxyn leaves, when it does not fault. -/
def State.drawn (s : State) (x y : Reg) (n : Fin 16) : Canvas :=
  Canvas.drawRows (s.reg x).toNat (s.reg y).toNat 0
    ((List.range n.val).map (fun k => s.readByte ((s.i.toNat + k) % 0x1000))) { fb := s.fb, hit := false }

theorem execDrw_cases (x y : Reg) (n : Fin 16) :
    (s.rangeInReach s.i.toNat n.val ∧ execDrw x y n s =
      .next { s.setReg VF (flagByte (s.drawn x y n).hit) with fb := (s.drawn x y n).fb, redraw := true }.advance) ∨
    (¬ s.rangeInReach s.i.toNat n.val ∧
      execDrw x y n s = .next (s.takeFault ⟨.read, max s.i.toNat 0x1000⟩)) := by
  by_cases h : s.rangeInReach s.i.toNat n.val
  · have e := (s.readBytes_ok_iff n.val s.i.toNat _).mpr ⟨h, rfl⟩
    exact .inl ⟨h, by simp only [execDrw, State.dataAddr, Nat.add_zero, e, complete, State.drawn]⟩
  · have e := (s.readBytes_error_iff n.val s.i.toNat _).mpr ⟨h, rfl⟩
    exact .inr ⟨h, by simp only [execDrw, State.dataAddr, Nat.add_zero, e, complete]⟩

/-- The cells and the collision of a Dxyn, bit by bit. -/
theorem drawn_cells (x y : Reg) (n : Fin 16) :
    (∀ r < n.val, ∀ c < 8, (s.drawn x y n).fb.getLsbD (pixelIndex (s.reg x).toNat (s.reg y).toNat r c) =
      (s.pixel (pixelIndex (s.reg x).toNat (s.reg y).toNat r c) ^^
        (s.readByte ((s.i.toNat + r) % 0x1000)).getLsbD (7 - c))) ∧
    (∀ k, (∀ r < n.val, ∀ c < 8, k ≠ pixelIndex (s.reg x).toNat (s.reg y).toNat r c) →
      (s.drawn x y n).fb.getLsbD k = s.pixel k) ∧
    ((s.drawn x y n).hit = true ↔ ∃ r < n.val, ∃ c < 8,
      (s.readByte ((s.i.toNat + r) % 0x1000)).getLsbD (7 - c) = true ∧
        s.pixel (pixelIndex (s.reg x).toNat (s.reg y).toNat r c) = true) := by
  have hmem : ∀ k, k ∈ spriteCells (s.reg x).toNat (s.reg y).toNat 0
      ((List.range n.val).map (fun k => s.readByte ((s.i.toNat + k) % 0x1000))) ↔ ∃ r < n.val, ∃ c < 8,
      (s.readByte ((s.i.toNat + r) % 0x1000)).getLsbD (7 - c) = true ∧
        k = pixelIndex (s.reg x).toNat (s.reg y).toNat r c := fun k => by
    rw [mem_spriteCells]
    simp
  obtain ⟨h1, h2⟩ := Canvas.drawRows_cells (s.reg x).toNat (s.reg y).toNat
    ((List.range n.val).map (fun k => s.readByte ((s.i.toNat + k) % 0x1000))) (by simp; omega) s.fb
  refine ⟨fun r hr c hc => ?_, fun k hk => ?_, ?_⟩
  · rw [State.drawn, h1]
    congr 1
    rw [Bool.eq_iff_iff, decide_eq_true_iff, hmem]
    constructor
    · rintro ⟨r', hr', c', hc', hb, he⟩
      obtain ⟨rfl, rfl⟩ := pixelIndex_inj _ _ r r' c c' (by omega) (by omega) hc hc' he
      exact hb
    · exact fun hb => ⟨r, hr, c, hc, hb, rfl⟩
  · rw [State.drawn, h1, decide_eq_false, Bool.xor_false]
    · rfl
    · rw [hmem]
      rintro ⟨r, hr, c, hc, -, he⟩
      exact hk r hr c hc he
  · rw [State.drawn, h2, List.any_eq_true]
    simp only [hmem]
    constructor
    · rintro ⟨k, ⟨r, hr, c, hc, hb, rfl⟩, hk⟩
      exact ⟨r, hr, c, hc, hb, hk⟩
    · rintro ⟨r, hr, c, hc, hb, hk⟩
      exact ⟨_, ⟨r, hr, c, hc, hb, rfl⟩, hk⟩

/-! ### The two-write operations of 43_alu.md R153 -/

/-- Only `V` differs. -/
theorem flagAndResult_eq (x y : Reg) (flag result : Byte → Byte → Byte) :
    s.flagAndResult x y flag result = { s with v := (s.flagAndResult x y flag result).v } := by
  unfold State.flagAndResult
  split <;> rfl

/-- Flag first: the result is computed from the registers after VF was written, and Vx wins over VF. -/
theorem flagAndResult_asWritten (x y : Reg) (flag result : Byte → Byte → Byte) (h : s.params.flagOrder = .asWritten)
    (z : Reg) :
    (s.flagAndResult x y flag result).reg z =
      if z = x then
        result (if x = VF then flag (s.reg x) (s.reg y) else s.reg x) (if y = VF then flag (s.reg x) (s.reg y) else s.reg y)
      else if z = VF then flag (s.reg x) (s.reg y)
      else s.reg z := by
  simp only [State.flagAndResult, h, State.setReg_reg]

/-- Flag last: the result is computed from the registers as they were, and VF wins over Vx. -/
theorem flagAndResult_flagLast (x y : Reg) (flag result : Byte → Byte → Byte) (h : s.params.flagOrder = .flagLast)
    (z : Reg) :
    (s.flagAndResult x y flag result).reg z =
      if z = VF then flag (s.reg x) (s.reg y) else if z = x then result (s.reg x) (s.reg y) else s.reg z := by
  simp only [State.flagAndResult, h, State.setReg_reg]

theorem changes_flagAndResult (x y : Reg) (flag result : Byte → Byte → Byte) :
    ChangesOnly (fun p => p = .reg x ∨ p = .reg VF) s (s.flagAndResult x y flag result) := by
  unfold State.flagAndResult
  split
  · exact ((changes_setReg _ _ _).mono fun p h => .inr h).trans ((changes_setReg _ _ _).mono fun p h => .inl h)
  · exact ((changes_setReg _ _ _).mono fun p h => .inl h).trans ((changes_setReg _ _ _).mono fun p h => .inr h)

/-! ### Copying an image -/

/-- What copying an image leaves: only its own bytes change, they hold the image, and the canonical form is kept. -/
theorem copyBytes_spec (rom : List Byte) (a : Nat) (h : a + rom.length ≤ 0x1000) :
    State.copyBytes rom a s = { s with mem := (State.copyBytes rom a s).mem } ∧
    ChangesOnly (fun p => ∃ k < rom.length, p = .byte (a + k)) s (State.copyBytes rom a s) ∧
    (∀ k (hk : k < rom.length), (State.copyBytes rom a s).readByte (a + k) = rom[k]) ∧
    (Memory.wf s.params.font s.mem →
      Memory.wf (State.copyBytes rom a s).params.font (State.copyBytes rom a s).mem) := by
  induction rom generalizing a s with
  | nil => exact ⟨rfl, ChangesOnly.refl _ _, by simp, id⟩
  | cons b bs ih =>
    simp only [List.length_cons] at h
    obtain ⟨h1, h2, h3, h4⟩ := ih (s.writeByte a b) (a + 1) (by omega)
    refine ⟨?_, ?_, fun k hk => ?_, fun hw => h4 (State.writeByte_wf _ _ _ (by omega) hw)⟩
    · simp only [State.copyBytes]
      rw [h1]
      rfl
    · simp only [State.copyBytes]
      refine ChangesOnly.trans (t := s.writeByte a b) ?_ (h2.mono ?_)
      · intro p hp
        cases p with
        | byte e =>
          have : e ≠ a := fun e' => hp ⟨0, by simp, by rw [e']; rfl⟩
          simp [StatePart.same, State.readByte_writeByte, this]
        | _ => simp [StatePart.same]
      · rintro p ⟨k, hk, rfl⟩
        exact ⟨k + 1, by simpa using hk, by congr 1; omega⟩
    · simp only [State.copyBytes]
      cases k with
      | zero =>
        have := h2 (.byte a) (by rintro ⟨k, hk, e⟩; simp at e; omega)
        simpa [StatePart.same, State.readByte_writeByte] using this
      | succ k =>
        have := h3 k (by simpa using hk)
        simpa [Nat.add_assoc, Nat.add_comm 1 k] using this

/-! ### Every instruction -/

/-- How an instruction ends: it completes, and then the latch, the RND input and the parameters are as before and memory
stays canonical; or it takes a fault of the kind it can raise, with the value 60_exceptions.md R203 names. -/
inductive Ends (i : Instr) (s t : State) : Prop
  | completes (latch : t.fault = s.fault) (kept : t.rndIn = s.rndIn ∧ t.rndDraw = s.rndDraw ∧ t.params = s.params)
      (memory : Memory.wf s.params.font s.mem → Memory.wf t.params.font t.mem)
  | faults (r : OutOfRange) (entry : t = s.takeFault r)
      (why : match r.kind with
        | .none | .fetch => False
        | .read => ¬ s.rangeInReach s.i.toNat 16 ∧ r.value = max s.i.toNat 0x1000 ∧
            (match i with | .drw _ _ _ | .ldVMem _ => True | _ => False)
        | .write => ¬ s.rangeInReach s.i.toNat 16 ∧ r.value = max s.i.toNat 0x1000 ∧
            (match i with | .ldB _ | .ldMemV _ => True | _ => False)
        | .key => s.params.oob = .fault ∧ 15 < r.value ∧ r.value < 256 ∧
            (match i with | .skp _ | .sknp _ => True | _ => False)
        | .stackOverflow => s.sp.val = 16 ∧ r.value = 16 ∧ (match i with | .call _ => True | _ => False)
        | .stackUnderflow => s.sp.val = 0 ∧ r.value = 0 ∧ (match i with | .ret => True | _ => False))

theorem not_rangeInReach_of_le (a n m : Nat) (h : n ≤ m) (h2 : ¬ s.rangeInReach a n) : ¬ s.rangeInReach a m := by
  rw [State.not_rangeInReach_iff] at h2 ⊢
  exact ⟨by omega, by omega, h2.2.2⟩

theorem storeAtIndex_ends (i : Instr) (s t : State) (bs : List Byte) (hb : bs.length ≤ 16)
    (hi : match i with | .ldB _ | .ldMemV _ => True | _ => False) (h : complete s (s.storeAtIndex bs) = .next t) :
    Ends i s t := by
  rcases storeAtIndex_cases s bs with ⟨-, u, hu, e⟩ | ⟨hr, e⟩
  · obtain rfl := Host.Outcome.next.inj (e.symm.trans h)
    obtain ⟨h1, -, -, h4⟩ := s.writeBytes_ok _ _ _ hu
    exact .completes (by rw [h1]; simp) (by rw [h1]; simp) (by simpa using h4)
  · obtain rfl := Host.Outcome.next.inj (e.symm.trans h)
    exact .faults _ rfl ⟨not_rangeInReach_of_le _ _ _ _ hb hr, rfl, hi⟩

/-- Everything the end of an instruction can be. -/
theorem exec_ends (i : Instr) (s t : State) (h : exec i s = .next t) : Ends i s t := by
  cases i with
  | ret =>
    rcases execRet_cases s with ⟨hs, e⟩ | ⟨-, e⟩
    · obtain rfl := Host.Outcome.next.inj (e.symm.trans h)
      exact .faults _ rfl ⟨hs, rfl, trivial⟩
    · obtain rfl := Host.Outcome.next.inj (e.symm.trans h)
      exact .completes rfl ⟨rfl, rfl, rfl⟩ id
  | call nnn =>
    rcases execCall_cases s nnn with ⟨_, e⟩ | ⟨hs, e⟩
    · obtain rfl := Host.Outcome.next.inj (e.symm.trans h)
      exact .completes rfl ⟨rfl, rfl, rfl⟩ id
    · obtain rfl := Host.Outcome.next.inj (e.symm.trans h)
      exact .faults _ rfl ⟨hs, rfl, trivial⟩
  | skp x =>
    rcases execSkp_cases s x with ⟨-, e⟩ | ⟨hk, e⟩
    · obtain rfl := Host.Outcome.next.inj (e.symm.trans h)
      exact .completes rfl ⟨rfl, rfl, rfl⟩ id
    · obtain rfl := Host.Outcome.next.inj (e.symm.trans h)
      exact .faults _ rfl ⟨hk.2, hk.1, (s.reg x).isLt, trivial⟩
  | sknp x =>
    rcases execSknp_cases s x with ⟨-, k, -, e⟩ | ⟨hk, e⟩
    · obtain rfl := Host.Outcome.next.inj (e.symm.trans h)
      split <;> exact .completes rfl ⟨rfl, rfl, rfl⟩ id
    · obtain rfl := Host.Outcome.next.inj (e.symm.trans h)
      exact .faults _ rfl ⟨hk.2, hk.1, (s.reg x).isLt, trivial⟩
  | ldK x =>
    rcases execLdK_cases s x with ⟨k, -, e⟩ | ⟨-, e⟩
    · obtain rfl := Host.Outcome.next.inj (e.symm.trans h)
      exact .completes rfl ⟨rfl, rfl, rfl⟩ id
    · obtain rfl := Host.Outcome.next.inj (e.symm.trans h)
      exact .completes rfl ⟨rfl, rfl, rfl⟩ id
  | drw x y n =>
    rcases execDrw_cases s x y n with ⟨-, e⟩ | ⟨hr, e⟩
    · obtain rfl := Host.Outcome.next.inj (e.symm.trans h)
      exact .completes rfl ⟨rfl, rfl, rfl⟩ id
    · obtain rfl := Host.Outcome.next.inj (e.symm.trans h)
      exact .faults _ rfl ⟨not_rangeInReach_of_le _ _ _ _ (by omega) hr, rfl, trivial⟩
  | ldVMem x =>
    rcases execLdVMem_cases s x with ⟨-, e⟩ | ⟨hr, e⟩
    · obtain rfl := Host.Outcome.next.inj (e.symm.trans h)
      have hv := (s.setRegs_eq ((List.range (x.val + 1)).map
        (fun k => s.readByte ((s.i.toNat + k) % 0x1000))) 0 (by simp)).1
      refine .completes ?_ ?_ ?_ <;> rw [hv] <;> simp
    · obtain rfl := Host.Outcome.next.inj (e.symm.trans h)
      exact .faults _ rfl ⟨not_rangeInReach_of_le _ _ _ _ (by omega) hr, rfl, trivial⟩
  | ldB x => exact storeAtIndex_ends _ _ _ _ (by simp [bcdDigits]) trivial h
  | ldMemV x => exact storeAtIndex_ends _ _ _ _ (by rw [State.regsUpTo_length]; omega) trivial h
  | sub x y =>
    obtain rfl := Host.Outcome.next.inj h
    rw [flagAndResult_eq]
    exact .completes rfl ⟨rfl, rfl, rfl⟩ id
  | subn x y =>
    obtain rfl := Host.Outcome.next.inj h
    rw [flagAndResult_eq]
    exact .completes rfl ⟨rfl, rfl, rfl⟩ id
  | shr x y =>
    obtain rfl := Host.Outcome.next.inj h
    rw [flagAndResult_eq]
    exact .completes rfl ⟨rfl, rfl, rfl⟩ id
  | shl x y =>
    obtain rfl := Host.Outcome.next.inj h
    rw [flagAndResult_eq]
    exact .completes rfl ⟨rfl, rfl, rfl⟩ id
  | _ =>
    obtain rfl := Host.Outcome.next.inj h
    exact .completes rfl ⟨rfl, rfl, rfl⟩ id

end Sys2Proof.Machine
end

