-- ==== Sys2Proof/Laws/PerInstr.lean ====
section
/-! SUPPORT. Statements made for each instruction. Family TableRow: the word the encoder writes belongs to the
instruction's own row of opcode_table.json, and an `unknown` word to none. -/

namespace Sys2Proof

/-- The instruction's row of the opcode table; `none` for the row of unknown words. -/
def Instr.row : Instr → Option Row
  | .cls => some ⟨0xFFFF, 0x00E0⟩
  | .ret => some ⟨0xFFFF, 0x00EE⟩
  | .jp _ => some ⟨0xF000, 0x1000⟩
  | .call _ => some ⟨0xF000, 0x2000⟩
  | .seImm _ _ => some ⟨0xF000, 0x3000⟩
  | .sneImm _ _ => some ⟨0xF000, 0x4000⟩
  | .seReg _ _ => some ⟨0xF00F, 0x5000⟩
  | .ldImm _ _ => some ⟨0xF000, 0x6000⟩
  | .addImm _ _ => some ⟨0xF000, 0x7000⟩
  | .ldReg _ _ => some ⟨0xF00F, 0x8000⟩
  | .orReg _ _ => some ⟨0xF00F, 0x8001⟩
  | .andReg _ _ => some ⟨0xF00F, 0x8002⟩
  | .xorReg _ _ => some ⟨0xF00F, 0x8003⟩
  | .addReg _ _ => some ⟨0xF00F, 0x8004⟩
  | .sub _ _ => some ⟨0xF00F, 0x8005⟩
  | .shr _ _ => some ⟨0xF00F, 0x8006⟩
  | .subn _ _ => some ⟨0xF00F, 0x8007⟩
  | .shl _ _ => some ⟨0xF00F, 0x800E⟩
  | .sneReg _ _ => some ⟨0xF00F, 0x9000⟩
  | .ldI _ => some ⟨0xF000, 0xA000⟩
  | .jpV0 _ => some ⟨0xF000, 0xB000⟩
  | .rnd _ _ => some ⟨0xF000, 0xC000⟩
  | .drw _ _ _ => some ⟨0xF000, 0xD000⟩
  | .skp _ => some ⟨0xF0FF, 0xE09E⟩
  | .sknp _ => some ⟨0xF0FF, 0xE0A1⟩
  | .ldVDt _ => some ⟨0xF0FF, 0xF007⟩
  | .ldK _ => some ⟨0xF0FF, 0xF00A⟩
  | .ldDtV _ => some ⟨0xF0FF, 0xF015⟩
  | .ldStV _ => some ⟨0xF0FF, 0xF018⟩
  | .addI _ => some ⟨0xF0FF, 0xF01E⟩
  | .ldF _ => some ⟨0xF0FF, 0xF029⟩
  | .ldB _ => some ⟨0xF0FF, 0xF033⟩
  | .ldMemV _ => some ⟨0xF0FF, 0xF055⟩
  | .ldVMem _ => some ⟨0xF0FF, 0xF065⟩
  | .unknown _ => none

namespace Laws.TableRow

/-- A well-formed instruction's word belongs to its own row of the table. -/
def Statement (i : Instr) : Prop :=
  i.wf = true → match i.row with
    | some r => r ∈ opcodeTable ∧ r.covers (encode i) = true
    | none => isNamedWord (encode i) = false

theorem of_nnn (o : Nat) (nnn : Addr) (ho : o < 16) (v : Word) (hv : v.toNat = o * 0x1000) :
    (Row.mk 0xF000 v).covers (layoutNNN o nnn) = true := by
  rw [covers_family, layoutNNN_toNat o nnn ho, hv]; omega

theorem of_xnn (o : Nat) (x : Reg) (nn : Byte) (ho : o < 16) (v : Word) (hv : v.toNat = o * 0x1000) :
    (Row.mk 0xF000 v).covers (layoutXNN o x nn) = true := by
  rw [covers_family, layoutXNN_toNat o x nn ho, hv]; omega

theorem of_xyf (o : Nat) (x y : Reg) (f : Nat) (ho : o < 16) (hf : f < 16) (v : Word) (hv : v.toNat = o * 0x1000 + f) :
    (Row.mk 0xF00F v).covers (layoutXYN o x y f) = true := by
  rw [covers_nibble, layoutXYN_toNat o x y f ho hf, hv]; omega

theorem of_xyn (o : Nat) (x y : Reg) (f : Nat) (ho : o < 16) (hf : f < 16) (v : Word) (hv : v.toNat = o * 0x1000) :
    (Row.mk 0xF000 v).covers (layoutXYN o x y f) = true := by
  rw [covers_family, layoutXYN_toNat o x y f ho hf, hv]; omega

theorem of_xff (o : Nat) (x : Reg) (f : Nat) (ho : o < 16) (hf : f < 256) (v : Word) (hv : v.toNat = o * 0x1000 + f) :
    (Row.mk 0xF0FF v).covers (layoutXFF o x f) = true := by
  rw [covers_byte, layoutXFF_toNat o x f ho hf, hv]; omega

theorem cls : Statement .cls := fun _ => ⟨by decide, by decide⟩
theorem ret : Statement .ret := fun _ => ⟨by decide, by decide⟩
theorem jp (nnn : Addr) : Statement (.jp nnn) := fun _ => ⟨by decide, of_nnn 0x1 nnn (by decide) _ rfl⟩
theorem call (nnn : Addr) : Statement (.call nnn) := fun _ => ⟨by decide, of_nnn 0x2 nnn (by decide) _ rfl⟩
theorem seImm (x : Reg) (nn : Byte) : Statement (.seImm x nn) := fun _ => ⟨by decide, of_xnn 0x3 x nn (by decide) _ rfl⟩
theorem sneImm (x : Reg) (nn : Byte) : Statement (.sneImm x nn) := fun _ => ⟨by decide, of_xnn 0x4 x nn (by decide) _ rfl⟩
theorem seReg (x y : Reg) : Statement (.seReg x y) := fun _ => ⟨by decide, of_xyf 0x5 x y 0x0 (by decide) (by decide) _ rfl⟩
theorem ldImm (x : Reg) (nn : Byte) : Statement (.ldImm x nn) := fun _ => ⟨by decide, of_xnn 0x6 x nn (by decide) _ rfl⟩
theorem addImm (x : Reg) (nn : Byte) : Statement (.addImm x nn) := fun _ => ⟨by decide, of_xnn 0x7 x nn (by decide) _ rfl⟩
theorem ldReg (x y : Reg) : Statement (.ldReg x y) := fun _ => ⟨by decide, of_xyf 0x8 x y 0x0 (by decide) (by decide) _ rfl⟩
theorem orReg (x y : Reg) : Statement (.orReg x y) := fun _ => ⟨by decide, of_xyf 0x8 x y 0x1 (by decide) (by decide) _ rfl⟩
theorem andReg (x y : Reg) : Statement (.andReg x y) := fun _ => ⟨by decide, of_xyf 0x8 x y 0x2 (by decide) (by decide) _ rfl⟩
theorem xorReg (x y : Reg) : Statement (.xorReg x y) := fun _ => ⟨by decide, of_xyf 0x8 x y 0x3 (by decide) (by decide) _ rfl⟩
theorem addReg (x y : Reg) : Statement (.addReg x y) := fun _ => ⟨by decide, of_xyf 0x8 x y 0x4 (by decide) (by decide) _ rfl⟩
theorem sub (x y : Reg) : Statement (.sub x y) := fun _ => ⟨by decide, of_xyf 0x8 x y 0x5 (by decide) (by decide) _ rfl⟩
theorem shr (x y : Reg) : Statement (.shr x y) := fun _ => ⟨by decide, of_xyf 0x8 x y 0x6 (by decide) (by decide) _ rfl⟩
theorem subn (x y : Reg) : Statement (.subn x y) := fun _ => ⟨by decide, of_xyf 0x8 x y 0x7 (by decide) (by decide) _ rfl⟩
theorem shl (x y : Reg) : Statement (.shl x y) := fun _ => ⟨by decide, of_xyf 0x8 x y 0xE (by decide) (by decide) _ rfl⟩
theorem sneReg (x y : Reg) : Statement (.sneReg x y) := fun _ => ⟨by decide, of_xyf 0x9 x y 0x0 (by decide) (by decide) _ rfl⟩
theorem ldI (nnn : Addr) : Statement (.ldI nnn) := fun _ => ⟨by decide, of_nnn 0xA nnn (by decide) _ rfl⟩
theorem jpV0 (nnn : Addr) : Statement (.jpV0 nnn) := fun _ => ⟨by decide, of_nnn 0xB nnn (by decide) _ rfl⟩
theorem rnd (x : Reg) (nn : Byte) : Statement (.rnd x nn) := fun _ => ⟨by decide, of_xnn 0xC x nn (by decide) _ rfl⟩
theorem drw (x y : Reg) (n : Fin 16) : Statement (.drw x y n) := fun _ => ⟨by decide, of_xyn 0xD x y n.val (by decide) n.isLt _ rfl⟩
theorem skp (x : Reg) : Statement (.skp x) := fun _ => ⟨by decide, of_xff 0xE x 0x9E (by decide) (by decide) _ rfl⟩
theorem sknp (x : Reg) : Statement (.sknp x) := fun _ => ⟨by decide, of_xff 0xE x 0xA1 (by decide) (by decide) _ rfl⟩
theorem ldVDt (x : Reg) : Statement (.ldVDt x) := fun _ => ⟨by decide, of_xff 0xF x 0x07 (by decide) (by decide) _ rfl⟩
theorem ldK (x : Reg) : Statement (.ldK x) := fun _ => ⟨by decide, of_xff 0xF x 0x0A (by decide) (by decide) _ rfl⟩
theorem ldDtV (x : Reg) : Statement (.ldDtV x) := fun _ => ⟨by decide, of_xff 0xF x 0x15 (by decide) (by decide) _ rfl⟩
theorem ldStV (x : Reg) : Statement (.ldStV x) := fun _ => ⟨by decide, of_xff 0xF x 0x18 (by decide) (by decide) _ rfl⟩
theorem addI (x : Reg) : Statement (.addI x) := fun _ => ⟨by decide, of_xff 0xF x 0x1E (by decide) (by decide) _ rfl⟩
theorem ldF (x : Reg) : Statement (.ldF x) := fun _ => ⟨by decide, of_xff 0xF x 0x29 (by decide) (by decide) _ rfl⟩
theorem ldB (x : Reg) : Statement (.ldB x) := fun _ => ⟨by decide, of_xff 0xF x 0x33 (by decide) (by decide) _ rfl⟩
theorem ldMemV (x : Reg) : Statement (.ldMemV x) := fun _ => ⟨by decide, of_xff 0xF x 0x55 (by decide) (by decide) _ rfl⟩
theorem ldVMem (x : Reg) : Statement (.ldVMem x) := fun _ => ⟨by decide, of_xff 0xF x 0x65 (by decide) (by decide) _ rfl⟩

theorem unknown (w : Word) : Statement (.unknown w) := fun h => by
  simpa [Instr.wf, Instr.row, encode] using h

end Laws.TableRow

end Sys2Proof
end

