-- ==== Sys2Proof/Tests/Slice0.lean ====
section
/-! SUPPORT. The model's own tests. Words are written out from the encodings of 30_encoding.md; expected results are those
of 95_test_vectors.md, whose row each test names. The last part has the witnesses of the statements' hypotheses. -/

namespace Sys2Proof.Tests

open Sys2Proof Sys2Proof.Machine

/-- The block after INIT, with registers set. -/
def regs (l : List (Reg × Byte)) : State := l.foldl (fun s p => s.setReg p.1 p.2) State.reset

def State.wrapping (s : State) : State := { s with params := { s.params with oob := .wrap } }

def State.flagLast (s : State) : State := { s with params := { s.params with flagOrder := .flagLast } }

def State.bitShifts (s : State) : State := { s with params := { s.params with shiftFlag := .bit } }

/-- One step with the word `w` placed where it is fetched. -/
def op (w : Nat) (s : State) : State :=
  match step (s.withFetchWord 16 w) with
  | .next t => t
  | .fault _ => s
  | .refused _ => s

/-- The latch as (kind, value, pc). -/
def latch (s : State) : FaultKind × Word × Word := (s.fault.kind, s.fault.value, s.fault.pc)

/-- The cells that are set. -/
def cells (s : State) : List Nat := (List.range 2048).filter s.pixel

/-! ### Well-formedness: the one check is on the word of `unknown` -/

theorem test_wf_refuses_named_whole_word : (Instr.unknown 0x00E0).wf = false := by decide

theorem test_wf_refuses_named_family_word : (Instr.unknown 0x8ABE).wf = false := by decide

theorem test_wf_accepts_unnamed_word : (Instr.unknown 0x8AB8).wf = true := by decide

/-! ### Decoding: words written out bit by bit from the patterns of 30_encoding.md R74 -/

theorem test_decode_control :
    decodeWord 0b0000000011101110 = .ret ∧
    decodeWord 0b0001001000110100 = .jp 0x234 ∧
    decodeWord 0b0010111111111110 = .call 0xFFE ∧
    decodeWord 0b1011100000000001 = .jpV0 0x801 := by decide

theorem test_decode_skips :
    decodeWord 0b0011101001000010 = .seImm 0xA 0x42 ∧
    decodeWord 0b0100101001000010 = .sneImm 0xA 0x42 ∧
    decodeWord 0b0101000100100000 = .seReg 1 2 ∧
    decodeWord 0b1001000100100000 = .sneReg 1 2 := by decide

theorem test_decode_loads :
    decodeWord 0b0110111110000001 = .ldImm 0xF 0x81 ∧
    decodeWord 0b0111000110000001 = .addImm 1 0x81 ∧
    decodeWord 0b1000000100100000 = .ldReg 1 2 ∧
    decodeWord 0b1100010100001111 = .rnd 5 0x0F := by decide

theorem test_decode_alu :
    decodeWord 0b1000000100100001 = .orReg 1 2 ∧
    decodeWord 0b1000000100100010 = .andReg 1 2 ∧
    decodeWord 0b1000000100100011 = .xorReg 1 2 ∧
    decodeWord 0b1000000100100100 = .addReg 1 2 ∧
    decodeWord 0b1000000100100101 = .sub 1 2 ∧
    decodeWord 0b1000000100100110 = .shr 1 2 ∧
    decodeWord 0b1000000100100111 = .subn 1 2 ∧
    decodeWord 0b1000000100101110 = .shl 1 2 := by decide

theorem test_decode_index :
    decodeWord 0b1010100000000001 = .ldI 0x801 ∧
    decodeWord 0b1111110000011110 = .addI 0xC ∧
    decodeWord 0b1111110000101001 = .ldF 0xC ∧
    decodeWord 0b1111110000110011 = .ldB 0xC ∧
    decodeWord 0b1111110001010101 = .ldMemV 0xC ∧
    decodeWord 0b1111110001100101 = .ldVMem 0xC := by decide

theorem test_decode_display :
    decodeWord 0b0000000011100000 = .cls ∧
    decodeWord 0b1101000100101111 = .drw 1 2 15 := by decide

theorem test_decode_keypad_timers :
    decodeWord 0b1110011110011110 = .skp 7 ∧
    decodeWord 0b1110011110100001 = .sknp 7 ∧
    decodeWord 0b1111110000000111 = .ldVDt 0xC ∧
    decodeWord 0b1111110000001010 = .ldK 0xC ∧
    decodeWord 0b1111110000010101 = .ldDtV 0xC ∧
    decodeWord 0b1111110000011000 = .ldStV 0xC := by decide

theorem test_decode_unknown :
    decodeWord 0b0101000100100001 = .unknown 0x5121 := by decide

/-- R205, R77: words one bit away from a named pattern stay unknown. -/
theorem test_decode_near_misses :
    decodeWord 0x00E1 = .unknown 0x00E1 ∧ decodeWord 0x0123 = .unknown 0x0123 ∧ decodeWord 0x8AB8 = .unknown 0x8AB8 ∧
    decodeWord 0x9121 = .unknown 0x9121 ∧ decodeWord 0xE0FF = .unknown 0xE0FF ∧ decodeWord 0xF0FF = .unknown 0xF0FF := by
  decide

theorem test_decode_truncated : decode [0x12] = .error .truncated := by decide

/-- The bytes after an instruction are given back, and the first byte is the high one (20_memory.md R53). -/
theorem test_decode_rest : decode [0x12, 0x34, 0x56] = .ok (.jp 0x234, [0x56]) := by decide

theorem test_decode_table_word : decodeTableWord 16 0xD12F = some (.drw 1 2 15) := by decide

theorem test_encode_bytes : encodeBytes (.jp 0x234) = [0x12, 0x34] ∧ encodeBytes (.shr 0xA 0xB) = [0x8A, 0xB6] := by decide

/-! ### One step of each instruction -/

/-- D-1 -/
theorem test_cls : (let t := op 0x00E0 { State.reset with fb := 5 }; t.fb = 0 ∧ t.redraw = false ∧ t.pc = 0x202) := by decide +kernel

/-- CF-5 -/
theorem test_ret : (let t := op 0x00EE { State.reset with sp := 1, stack := State.reset.stack.set 0 0x204, pc := 0x300 }
    t.sp = 0 ∧ t.pc = 0x206 ∧ t.stack[0] = 0x204) := by decide

/-- CF-8 -/
theorem test_ret_underflow : latch (op 0x00EE State.reset) = (.stackUnderflow, 0, 0x200) := by decide

/-- CF-3 -/
theorem test_jp : (op 0x1FFF State.reset).pc = 0xFFF := by decide

/-- CF-6 -/
theorem test_call : (let t := op 0x2500 { State.reset with sp := 15, pc := 0x400 }
    t.stack[15] = 0x400 ∧ t.sp = 16 ∧ t.pc = 0x500) := by decide

/-- CF-7, CF-9 -/
theorem test_call_overflow : (let t := op 0x2600 (State.wrapping { State.reset with sp := 16, pc := 0x500, dt := 9 })
    latch t = (.stackOverflow, 16, 0x500) ∧ t.sp = 16 ∧ t.pc = 0x500 ∧ t.dt = 9) := by decide

/-- SK-1, SK-2 -/
theorem test_seImm : (op 0x3012 (regs [(0, 0x12)])).pc = 0x204 ∧ (op 0x3013 (regs [(0, 0x12)])).pc = 0x202 := by decide

/-- SK-11 -/
theorem test_seImm_wraps_pc : (op 0x3000 (State.wrapping { State.reset with pc := 0xFFFE })).pc = 2 := by decide

/-- SK-3, SK-4 -/
theorem test_sneImm : (op 0x4013 (regs [(0, 0x12)])).pc = 0x204 ∧ (op 0x4012 (regs [(0, 0x12)])).pc = 0x202 := by decide

/-- SK-5, SK-6 -/
theorem test_seReg : (op 0x5010 (regs [(0, 7), (1, 7)])).pc = 0x204 ∧ (op 0x5010 (regs [(0, 7), (1, 8)])).pc = 0x202 := by decide

/-- A-1 -/
theorem test_ldImm : (op 0x6A42 State.reset).reg 0xA = 0x42 := by decide

/-- L1-2 -/
theorem test_addImm : (let t := op 0x7002 (regs [(0, 0xFF), (VF, 0xAA)]); t.reg 0 = 1 ∧ t.reg VF = 0xAA) := by decide

/-- A-2 -/
theorem test_addImm_on_VF : (op 0x7FFF (regs [(VF, 0x55)])).reg VF = 0x54 := by decide

/-- A-4 -/
theorem test_ldReg : (op 0x8010 (regs [(1, 0x33)])).reg 0 = 0x33 := by decide

/-- A-5 -/
theorem test_orReg : (let t := op 0x8011 (regs [(0, 0xF0), (1, 0x0F), (VF, 7)]); t.reg 0 = 0xFF ∧ t.reg VF = 7) := by decide

/-- A-6 -/
theorem test_andReg : (op 0x8012 (regs [(0, 0xF0), (1, 0x3C)])).reg 0 = 0x30 := by decide

/-- A-7 -/
theorem test_xorReg : (op 0x8013 (regs [(0, 0xF0), (1, 0x3C)])).reg 0 = 0xCC := by decide

/-- A-9 -/
theorem test_addReg : (let t := op 0x8014 (regs [(0, 0x80), (1, 0x80)]); t.reg 0 = 0 ∧ t.reg VF = 1) := by decide

/-- A-12 -/
theorem test_addReg_onto_VF : (op 0x8F14 (regs [(VF, 0xFF), (1, 1)])).reg VF = 1 := by decide

/-- L1-4 -/
theorem test_sub : (let t := op 0x8015 (regs [(0, 1), (1, 2)]); t.reg 0 = 0xFF ∧ t.reg VF = 1) := by decide

/-- A-15 -/
theorem test_sub_onto_VF : (op 0x8F15 (regs [(VF, 5), (1, 2)])).reg VF = 0xFE ∧
    (op 0x8F15 (State.flagLast (regs [(VF, 5), (1, 2)]))).reg VF = 0 := by decide

/-- A-18 -/
theorem test_shr : (let t := op 0x8016 (regs [(0, 0x0B)]); t.reg 0 = 5 ∧ t.reg VF = 0x0B) ∧
    (op 0x8016 (State.bitShifts (regs [(0, 0x0B)]))).reg VF = 1 := by decide

/-- A-21 -/
theorem test_shr_onto_VF : (op 0x8F06 (regs [(VF, 0x0B)])).reg VF = 5 ∧ (op 0x8F06 (State.flagLast (regs [(VF, 0x0B)]))).reg VF = 0x0B := by decide

/-- A-23 -/
theorem test_subn : (let t := op 0x8017 (regs [(0, 2), (1, 5)]); t.reg 0 = 3 ∧ t.reg VF = 1) := by decide

/-- A-26 -/
theorem test_subn_from_VF : (op 0x80F7 (regs [(0, 2), (VF, 5)])).reg 0 = 0xFF ∧
    (op 0x80F7 (State.flagLast (regs [(0, 2), (VF, 5)]))).reg 0 = 3 := by decide

/-- A-29 -/
theorem test_shl : (let t := op 0x800E (regs [(0, 0xF0)]); t.reg 0 = 0xE0 ∧ t.reg VF = 0x78) ∧
    (op 0x800E (State.bitShifts (regs [(0, 0xF0)]))).reg VF = 1 := by decide

/-- A-31 -/
theorem test_shl_onto_VF : (op 0x8F0E (regs [(VF, 0x81)])).reg VF = 0x80 ∧ (op 0x8F0E (State.flagLast (regs [(VF, 0x81)]))).reg VF = 0x40 := by decide

/-- SK-8, SK-9 -/
theorem test_sneReg : (op 0x9010 (regs [(0, 1), (1, 2)])).pc = 0x204 ∧ (op 0x9110 State.reset).pc = 0x202 := by decide

/-- M-1 -/
theorem test_ldI : (op 0xA123 State.reset).i = 0x123 := by decide

/-- CF-12 -/
theorem test_jpV0 : (op 0xBFFF (regs [(0, 0xFF)])).pc = 0x10FE := by decide

/-- CF-14 -/
theorem test_jpV0_uses_V0_only : (op 0xB300 (regs [(1, 0x40)])).pc = 0x300 := by decide

/-- A-32 -/
theorem test_rnd : (op 0xC00F { State.reset with rndIn := [0xAB] }).reg 0 = 0x0B := by decide

/-- A-34 -/
theorem test_rnd_onto_VF : (op 0xCFFF { State.reset with rndIn := [0x5C] }).reg VF = 0x5C := by decide

/-- D-13 -/
theorem test_drw_collision : (let t := op 0xD011 { State.reset with i := 0x300, mem := [(0x300, 0xC0)], fb := 2 }
    t.fb = 1 ∧ t.reg VF = 1 ∧ t.redraw = true) := by decide +kernel

/-- D-4 -/
theorem test_drw_wraps : cells (op 0xD011 { regs [(0, 62)] with i := 0x300, mem := [(0x300, 0xFF)] }) = [0, 1, 2, 3, 4, 5, 62, 63] := by decide +kernel

/-- K-1, K-2 -/
theorem test_skp : (op 0xE09E ((regs [(0, 5)]).pressKey 5)).pc = 0x204 ∧ (op 0xE09E (regs [(0, 5)])).pc = 0x202 := by decide

/-- K-6 -/
theorem test_skp_key_fault : latch (op 0xE09E (regs [(0, 0x10)])) = (.key, 0x10, 0x200) := by decide

/-- K-3, K-4 -/
theorem test_sknp : (let t := op 0xE0A1 ((regs [(0, 5)]).pressKey 5); t.pc = 0x202 ∧ t.keyAt 5 = false) ∧
    (op 0xE0A1 (regs [(0, 5)])).pc = 0x204 := by decide

/-- K-8 -/
theorem test_sknp_wraps : (let t := op 0xE0A1 (State.wrapping ((regs [(0, 0x13)]).pressKey 3)); t.pc = 0x202 ∧ t.keyAt 3 = false) := by decide

/-- K-12 -/
theorem test_ldVDt : (let t := op 0xF007 { State.reset with dt := 4 }; t.reg 0 = 4 ∧ t.dt = 3) := by decide

/-- K-10 -/
theorem test_ldK : (let t := op 0xF10A ((State.reset.pressKey 9).pressKey 3)
    t.reg 1 = 3 ∧ t.keyAt 3 = false ∧ t.keyAt 9 = true ∧ t.pc = 0x202) := by decide

/-- K-9 -/
theorem test_ldK_waits : (let t := op 0xF10A { State.reset with dt := 2 }; t.pc = 0x200 ∧ t.reg 1 = 0 ∧ t.dt = 1) := by decide

/-- K-14 -/
theorem test_ldDtV : (op 0xF015 (regs [(0, 5)])).dt = 4 := by decide

/-- K-16, K-17 -/
theorem test_ldStV : (op 0xF318 (regs [(3, 0x10)])).st = 0x0F ∧ (op 0xF318 (regs [(3, 1)])).sound = false := by decide

/-- M-4 -/
theorem test_addI : (op 0xF01E { regs [(0, 2)] with i := 0xFFFF }).i = 1 := by decide

/-- M-6 -/
theorem test_ldF : (op 0xF029 (regs [(0, 0xFF)])).i = 0x4FB := by decide

/-- M-7 -/
theorem test_ldB : (let t := op 0xF033 { regs [(0, 0x9C)] with i := 0x300 }
    t.readByte 0x300 = 1 ∧ t.readByte 0x301 = 5 ∧ t.readByte 0x302 = 6) := by decide

/-- M-10 -/
theorem test_ldB_faults : (let t := op 0xF033 { regs [(0, 7)] with i := 0xFFE, mem := [(0xFFE, 9)] }
    latch t = (.write, 0x1000, 0x200) ∧ t.readByte 0xFFE = 9) := by decide

/-- M-12 -/
theorem test_ldMemV : (let t := op 0xF255 { regs [(0, 1), (1, 2), (2, 3)] with i := 0x300 }
    t.readByte 0x300 = 1 ∧ t.readByte 0x302 = 3 ∧ t.i = 0x300) := by decide

/-- M-14 -/
theorem test_ldMemV_faults : (let t := op 0xF555 { regs [(0, 1)] with i := 0xFFC }
    latch t = (.write, 0x1000, 0x200) ∧ t.readByte 0xFFC = 0) := by decide

/-- M-18 -/
theorem test_ldVMem : (let t := op 0xF465 State.reset; t.reg 0 = 0xF0 ∧ t.reg 1 = 0x90 ∧ t.reg 4 = 0xF0 ∧ t.reg 5 = 0) := by decide

/-- M-17 -/
theorem test_ldVMem_faults : latch (op 0xF065 { State.reset with i := 0x1000 }) = (.read, 0x1000, 0x200) := by decide

/-- S-3 -/
theorem test_unknown : (let t := op 0x5011 (regs [(0, 7), (1, 7)]); t.pc = 0x202 ∧ latch t = (.none, 0, 0)) := by decide

/-! ### The step and the host's operations -/

/-- S-9: a fault ticks nothing. -/
theorem test_fetch_fault :
    step { State.reset with pc := 0x1000, dt := 5 } =
      .next { State.reset with pc := 0x1000, dt := 5, fault := { kind := .fetch, value := 0x1000, pc := 0x1000 } } := by
  rfl

/-- S-11: under WRAP the word at 0xFFF has its low byte at 0x000. -/
theorem test_fetch_wraps :
    (match step (State.wrapping { State.reset with pc := 0xFFF, mem := [(0xFFF, 0x12)] }) with
      | .next t => t.pc
      | .fault _ => 0
      | .refused _ => 0) = 0x2F0 := by
  decide

/-- H-1 -/
theorem test_load :
    operate (.load [0x12, 0x00, 0x00, 0xE0]) (.live State.reset) =
      .next (.live { State.reset with mem := [(0x200, 0x12), (0x203, 0xE0)] }, .ok) := by
  rfl

/-- L1-9 -/
theorem test_load_too_large :
    operate (.load (List.replicate 3585 1)) (.live State.reset) = .next (.live State.reset, .romTooLarge) := by
  have h : (List.replicate 3585 (1 : Byte)).length > 3584 := by rw [List.length_replicate]; decide
  simp only [operate, operateLive, State.load, h, if_true]

/-- S-13: INIT is the way out of a fault. -/
theorem test_init_clears_fault :
    operate .init (.live { State.reset with fault := { kind := .read, value := 1, pc := 2 }, dt := 3 }) =
      .next (.live State.reset, .none) := by
  rfl

/-! ### Witnesses: the hypotheses of each statement are met together -/

/-- EncodedInstructionDecodesBack -/
theorem witness_encoded : (Instr.drw 1 2 15).wf = true ∧ (Instr.unknown 0x5121).wf = true := by decide

/-- WordIsUnknownIffNoRowMatches and UnknownWordIsNoOp: an unknown word, and its two neighbours in the table. -/
theorem witness_unknown :
    decodeWord 0x8128 = .unknown 0x8128 ∧ (∀ r ∈ opcodeTable, (0x8128 : Word) &&& r.mask ≠ r.value) ∧
    (∀ r ∈ opcodeTable, (0x0000 : Word) &&& r.mask ≠ r.value) ∧ (∀ r ∈ opcodeTable, (0xFFFF : Word) &&& r.mask ≠ r.value) ∧
    ¬ (∀ r ∈ opcodeTable, (0x8127 : Word) &&& r.mask ≠ r.value) := by
  decide

/-- NoWordMatchesTwoRows -/
theorem witness_row :
    ∃ j : Fin opcodeTable.length, (0x8127 : Word) &&& (opcodeTable.get j).mask = (opcodeTable.get j).value :=
  ⟨⟨16, by decide⟩, by decide⟩

/-- 00EE at 0x200 of an otherwise reset block. -/
def atReturn : State := { State.reset with mem := [(0x201, 0xEE)] }

/-- 6105 at 0xFFE, the last place a word can stand under FAULT. -/
def atTop : State := { State.reset with pc := 0xFFE, mem := [(0xFFE, 0x61), (0xFFF, 5)], dt := 1 }

/-- 1200 at 0x200. -/
def atSelfJump : State := { State.reset with mem := [(0x200, 0x12)], dt := 3 }

/-- F015 at 0x200. -/
def atTimerWrite : State := { regs [(0, 9)] with mem := [(0x200, 0xF0), (0x201, 0x15)] }

/-- StepRunsDecodedInstruction, the clause of a completed step: at the top of memory under FAULT, across it under WRAP. -/
theorem witness_step_completes :
    (atTop.fault.kind = .none ∧ atTop.pc.toNat + 1 ≤ 0xFFF ∧
      (0x6105 : Word).toNat = (atTop.readByte (atTop.pc.toNat % 0x1000)).toNat * 256 +
        (atTop.readByte ((atTop.pc.toNat + 1) % 0x1000)).toNat ∧
      ∃ t, exec (decodeWord 0x6105) atTop = .next t ∧ t.fault.kind = .none) ∧
    (let s := State.wrapping { State.reset with pc := 0xFFF, mem := [(0xFFF, 0x12)] };
      s.fault.kind = .none ∧ s.params.oob = .wrap ∧
      (0x12F0 : Word).toNat = (s.readByte (s.pc.toNat % 0x1000)).toNat * 256 +
        (s.readByte ((s.pc.toNat + 1) % 0x1000)).toNat ∧
      ∃ t, exec (decodeWord 0x12F0) s = .next t ∧ t.fault.kind = .none) :=
  ⟨⟨rfl, by decide, by decide, _, rfl, rfl⟩, ⟨rfl, rfl, by decide, _, rfl, rfl⟩⟩

/-- StepRunsDecodedInstruction, the clause of a fault; FaultsArePrecise. -/
theorem witness_step_faults :
    atReturn.fault.kind = .none ∧ atReturn.pc.toNat + 1 ≤ 0xFFF ∧
    (0x00EE : Word).toNat = (atReturn.readByte (atReturn.pc.toNat % 0x1000)).toNat * 256 +
      (atReturn.readByte ((atReturn.pc.toNat + 1) % 0x1000)).toNat ∧
    (∃ t, exec (decodeWord 0x00EE) atReturn = .next t ∧ t.fault.kind ≠ .none) ∧
    ∃ t, step atReturn = .next t ∧ t.fault.kind ≠ .none :=
  ⟨rfl, by decide, by decide, ⟨_, rfl, by decide⟩, _, rfl, by decide⟩

/-- HaltedBlockIsLeftOnlyByInit, with an operation of each clause. -/
theorem witness_halted :
    let s : State := { State.reset with fault := { kind := .key, value := 0x10, pc := 0x200 } };
    s.fault.kind ≠ .none ∧ (∃ t r, operate (.load [1]) (.live s) = .next (.live t, r)) ∧
      ∃ t r, operate .init (.live s) = .next (.live t, r) :=
  ⟨by decide, ⟨_, _, rfl⟩, _, _, rfl⟩

/-- FetchBeyondMemoryFaults, at both of its values. -/
theorem witness_fetch_beyond :
    (let s : State := { State.reset with pc := 0xFFF }; s.fault.kind = .none ∧ s.params.oob = .fault ∧ 0xFFF ≤ s.pc.toNat ∧ s.pc = 0xFFF) ∧
    (let s : State := { State.reset with pc := 0x1000 }; s.fault.kind = .none ∧ s.params.oob = .fault ∧ 0xFFF ≤ s.pc.toNat ∧ s.pc ≠ 0xFFF) := by
  decide

/-- OnlyListedInstructionsRaise: each listed kind is raised. -/
theorem witness_raises :
    (∃ t, exec .ret State.reset = .next t ∧ t.fault.kind = .stackUnderflow) ∧
    (∃ t, exec (.call 0) { State.reset with sp := 16 } = .next t ∧ t.fault.kind = .stackOverflow) ∧
    (∃ t, exec (.skp 0) (regs [(0, 0x10)]) = .next t ∧ t.fault.kind = .key) ∧
    (∃ t, exec (.sknp 0) (regs [(0, 0x10)]) = .next t ∧ t.fault.kind = .key) ∧
    (∃ t, exec (.drw 0 0 1) { State.reset with i := 0x1000 } = .next t ∧ t.fault.kind = .read) ∧
    (∃ t, exec (.ldVMem 0) { State.reset with i := 0x1000 } = .next t ∧ t.fault.kind = .read) ∧
    (∃ t, exec (.ldB 0) { State.reset with i := 0xFFE } = .next t ∧ t.fault.kind = .write) ∧
    (∃ t, exec (.ldMemV 0) { State.reset with i := 0x1000 } = .next t ∧ t.fault.kind = .write) :=
  ⟨⟨_, rfl, rfl⟩, ⟨_, rfl, rfl⟩, ⟨_, rfl, rfl⟩, ⟨_, rfl, rfl⟩, ⟨_, rfl, rfl⟩, ⟨_, rfl, rfl⟩, ⟨_, rfl, rfl⟩, ⟨_, rfl, rfl⟩⟩

/-- WrapBlockFaultsOnlyOnTheStack, at two of its outcomes. -/
theorem witness_wrap :
    (let s := State.wrapping { State.reset with pc := 0xFFFF };
      s.fault.kind = .none ∧ s.params.oob = .wrap ∧ ∃ t, step s = .next t ∧ t.fault.kind = .none) ∧
    (let s := State.wrapping atReturn;
      s.fault.kind = .none ∧ s.params.oob = .wrap ∧ ∃ t, step s = .next t ∧ t.fault.kind = .stackUnderflow) :=
  ⟨⟨rfl, rfl, _, rfl, by decide⟩, ⟨rfl, rfl, _, rfl, by decide⟩⟩

/-- StepKeepsInvariant and HostOperationsKeepInvariant: a state with listed memory, and one with a latched fault. -/
theorem witness_inv :
    atTop.Inv ∧ (∃ t, step atTop = .next t) ∧ (∃ t r, operate (.setKey 3) (.live atTop) = .next (.live t, r)) ∧
    (∃ t r, operate .init (.live atTop) = .next (.live t, r)) ∧
    State.Inv { State.reset with fault := { kind := .stackUnderflow, value := 0, pc := 0x200 } } :=
  ⟨⟨by decide, by simp [State.latchFits, atTop, State.reset, State.init, FaultLatch.clear]⟩, ⟨_, rfl⟩, ⟨_, _, rfl⟩,
    ⟨_, _, rfl⟩, ⟨by decide, by simp [State.latchFits, State.reset, State.init]⟩⟩

/-- OnlyListedInstructionsWriteRegisters, at the last register of a load. -/
theorem witness_writes_register :
    ∃ t, exec (.ldVMem 15) State.reset = .next t ∧ t.reg 15 ≠ State.reset.reg 15 := ⟨_, rfl, by decide⟩

/-- OnlyListedInstructionsWriteOtherState, the premise of each clause. -/
theorem witness_writes_other :
    (∃ t, exec (.ldI 1) State.reset = .next t ∧ t.i ≠ State.reset.i) ∧
    (∃ t, exec (.call 1) State.reset = .next t ∧ t.stack ≠ State.reset.stack ∧ t.sp ≠ State.reset.sp) ∧
    (∃ t, exec (.ldDtV 0) (regs [(0, 1)]) = .next t ∧ t.dt ≠ State.reset.dt) ∧
    (∃ t, exec (.ldStV 0) (regs [(0, 1)]) = .next t ∧ t.st ≠ State.reset.st) ∧
    (∃ t, exec (.drw 0 0 1) State.reset = .next t ∧ t.fb ≠ State.reset.fb ∧ t.redraw ≠ State.reset.redraw) ∧
    (∃ t, exec (.ldK 0) (State.reset.pressKey 7) = .next t ∧ t.keyAt 7 ≠ (State.reset.pressKey 7).keyAt 7) ∧
    (∃ t, exec (.ldMemV 0) State.reset = .next t ∧ t.readByte 0 ≠ State.reset.readByte 0) :=
  ⟨⟨_, rfl, by decide⟩, ⟨_, rfl, by decide, by decide⟩, ⟨_, rfl, by decide⟩, ⟨_, rfl, by decide⟩,
    ⟨_, rfl, by decide +kernel, by decide⟩, ⟨_, rfl, by decide⟩, ⟨_, rfl, by decide⟩⟩

/-- RandomByteReachesOnlyCxnn, FlagOrderMattersOnlyInListedCases -/
theorem witness_not_rnd :
    (∀ x nn, Instr.sub 1 2 ≠ .rnd x nn) ∧ ((1 : Reg) ≠ VF ∧ (2 : Reg) ≠ VF) ∧ ∃ t, exec (.sub 1 2) State.reset = .next t :=
  ⟨by simp, by decide, _, rfl⟩

/-- TimersTickOncePerCompletedStep, for a step that writes a timer and for one that does not. -/
theorem witness_timers :
    (atTimerWrite.fault.kind = .none ∧ atTimerWrite.fetch = .ok 0xF015 ∧
      ∃ t, step atTimerWrite = .next t ∧ t.fault.kind = .none) ∧
    (atSelfJump.fault.kind = .none ∧ atSelfJump.fetch = .ok 0x1200 ∧
      ∃ t, step atSelfJump = .next t ∧ t.fault.kind = .none) :=
  ⟨⟨rfl, rfl, _, rfl, by decide⟩, ⟨rfl, rfl, _, rfl, by decide⟩⟩

/-- SelfJumpHaltsForever -/
theorem witness_self_jump : atSelfJump.programHalted = true := by decide

/-- ReturnUndoesCall, CallPushesItsAddress, ReturnPopsTheCallSite and StackFaultsWhateverTheMode, at the ends of the stack. -/
theorem witness_stack :
    ({ State.reset with sp := 15 } : State).sp.val < 16 ∧ ({ State.reset with sp := 16 } : State).sp.val = 16 ∧
    ({ State.reset with sp := 16 } : State).sp.val ≠ 0 ∧ ({ State.reset with sp := 1 } : State).sp.val ≠ 0 ∧
    State.reset.sp.val = 0 := by
  decide

/-- OperationsBeforeInitAreRefused -/
theorem witness_not_init : Operation.step 0 ≠ .init := by decide

/-- LoadCopiesTheImage, on both sides of the limit. -/
theorem witness_image :
    (List.replicate 3584 (1 : Byte)).length ≤ 3584 ∧ 3584 < (List.replicate 3585 (1 : Byte)).length := by
  rw [List.length_replicate, List.length_replicate]
  decide

/-- FramebufferReadChangesNothing, at the last cell. -/
theorem witness_cell : 63 < 64 ∧ 31 < 32 := by decide

/-- SuppliedByteReachesCxnn -/
theorem witness_supplied :
    let s : State := { State.reset with mem := [(0x200, 0xC5), (0x201, 0x0F)] };
    s.fault.kind = .none ∧ s.fetch = .ok (BitVec.ofNat 16 (0xC000 + (5 : Reg).val * 0x100 + (0x0F : Byte).toNat)) :=
  ⟨rfl, rfl⟩

/-- AddWritesSumThenCarry, SubtractWritesBorrowAndDifference, ReverseSubtractWritesNotBorrowAndDifference: the
hypotheses name the flag and the operands, and either guard is met with VF as Vx and without. -/
theorem witness_two_writes :
    (1 : Reg) ≠ VF ∧
    (let s := regs [(VF, 5), (1, 2)];
      s.params.flagOrder = .asWritten ∧
      (0 : Nat) = (if (s.reg VF).toNat < (s.reg 1).toNat then 1 else 0) ∧
      (0 : Nat) = (if VF = VF ∧ s.params.flagOrder = .asWritten then 0 else (s.reg VF).toNat) ∧
      (2 : Nat) = (if (1 : Reg) = VF ∧ s.params.flagOrder = .asWritten then 0 else (s.reg 1).toNat)) ∧
    (let s := State.flagLast (regs [(VF, 5), (1, 2)]);
      s.params.flagOrder = .flagLast ∧
      (0 : Nat) = (if (s.reg VF).toNat > (s.reg 1).toNat then 0 else 1) ∧
      (5 : Nat) = (if VF = VF ∧ s.params.flagOrder = .asWritten then 0 else (s.reg VF).toNat)) := by
  decide

/-- ShiftRightWritesFlagAndHalf, ShiftLeftWritesFlagAndDouble, under both settings of P_SHIFT_FLAG. -/
theorem witness_shifts :
    (let s := regs [(VF, 0x8B)];
      (0xB : Nat) = (match s.params.shiftFlag with
        | .nibble => (s.reg VF).toNat % 16
        | .bit => (s.reg VF).toNat % 2) ∧
      (0xB : Nat) = (if VF = VF ∧ s.params.flagOrder = .asWritten then 0xB else (s.reg VF).toNat)) ∧
    (let s := State.bitShifts (regs [(VF, 0x8B)]);
      (1 : Nat) = (match s.params.shiftFlag with
        | .nibble => (s.reg VF).toNat / 16 * 8
        | .bit => (s.reg VF).toNat / 128) ∧
      (1 : Nat) = (if VF = VF ∧ s.params.flagOrder = .asWritten then 1 else (s.reg VF).toNat)) := by
  decide

/-- RandomIsMasked: a supplied byte, and none. -/
theorem witness_random :
    ({ State.reset with rndIn := [0xAB] } : State).rndIn = 0xAB :: [] ∧ State.reset.rndIn = [] := ⟨rfl, rfl⟩

/-- BcdStoresThreeDigits, RegisterDumpStoresV0ToVx, RegisterLoadReadsV0ToVx, DrawXorsTheSprite and
DrawingTwiceRestoresTheScreen: the last address that reaches, and any address under WRAP. -/
theorem witness_reach :
    ({ State.reset with i := 0xFFD } : State).i.toNat + 2 ≤ 0xFFF ∧
    ({ State.reset with i := 0xFF0 } : State).i.toNat + (15 : Reg).val ≤ 0xFFF ∧
    ({ State.reset with i := 0xFF1 } : State).i.toNat + ((15 : Fin 16).val - 1) ≤ 0xFFF ∧
    (State.wrapping { State.reset with i := 0xFFFF }).params.oob = .wrap := by
  decide

/-- RegisterDumpStoresV0ToVx and RegisterLoadReadsV0ToVx: the last register of the run. -/
theorem witness_last_register : (15 : Reg) ≤ 15 := by decide

/-- OutOfRangeOperandsFault, each clause at its first offending value. -/
theorem witness_out_of_range :
    State.reset.params.oob = .fault ∧ 0xFFF < ({ State.reset with i := 0xFFE } : State).i.toNat + 2 ∧
    0xFFF < ({ State.reset with i := 0xFF1 } : State).i.toNat + (15 : Reg).val ∧
    (15 : Fin 16).val ≠ 0 ∧ 0xFFF < ({ State.reset with i := 0xFF2 } : State).i.toNat + ((15 : Fin 16).val - 1) ∧
    0xF < ((regs [(0, 0x10)]).reg 0).toNat := by
  decide

/-- `bit` and `cell` as the two statements on Dxyn fix them. -/
def spriteBit (s : State) (r c : Nat) : Bool := (s.readByte ((s.i.toNat + r) % 0x1000)).getLsbD (7 - c)

def spriteCell (s : State) (x y : Reg) (r c : Nat) : Nat := ((s.reg y).toNat + r) % 32 * 64 + ((s.reg x).toNat + c) % 64

/-- A one-row sprite at the last byte of memory, to be drawn at the last cell. -/
def atLastCell (fb : BitVec 2048) : State :=
  { regs [(0, 63), (1, 31)] with i := 0xFFF, mem := [(0xFFF, 0x80)], fb := fb }

/-- DrawXorsTheSprite, both VF clauses: the last cell set, and clear. -/
theorem witness_draw :
    (let s := atLastCell (BitVec.twoPow 2048 2047);
      s.i.toNat + ((1 : Fin 16).val - 1) ≤ 0xFFF ∧ spriteCell s 0 1 0 0 = 2047 ∧
      (spriteBit s 0 0 = true ∧ s.pixel (spriteCell s 0 1 0 0) = true)) ∧
    (let s := atLastCell 0;
      s.i.toNat + ((1 : Fin 16).val - 1) ≤ 0xFFF ∧
      ∀ r < 1, ∀ c < 8, spriteBit s r c = true → s.pixel (spriteCell s 0 1 r c) = false) := by
  decide +kernel

/-- DrawingTwiceRestoresTheScreen, both VF clauses; neither coordinate is VF. -/
theorem witness_draw_twice :
    (0 : Reg) ≠ VF ∧ (1 : Reg) ≠ VF ∧
    (let s := atLastCell 0;
      s.i.toNat + ((1 : Fin 16).val - 1) ≤ 0xFFF ∧
      (spriteBit s 0 0 = true ∧ s.pixel (spriteCell s 0 1 0 0) = false)) ∧
    (let s := atLastCell (BitVec.twoPow 2048 2047);
      s.i.toNat + ((1 : Fin 16).val - 1) ≤ 0xFFF ∧
      ∀ r < 1, ∀ c < 8, spriteBit s r c = true → s.pixel (spriteCell s 0 1 r c) = true) := by
  decide +kernel

/-- KeySkipsHoldOrConsume: the last key under FAULT, and a masked value under WRAP. -/
theorem witness_key_index :
    (((regs [(0, 0xF)]).reg 0).toNat ≤ 0xF ∧ (15 : Fin 16).val = ((regs [(0, 0xF)]).reg 0).toNat % 16) ∧
    ((State.wrapping (regs [(0, 0x13)])).params.oob = .wrap ∧
      (3 : Fin 16).val = ((State.wrapping (regs [(0, 0x13)])).reg 0).toNat % 16) := by
  decide

/-- KeyWaitTakesTheSmallestKey: key 15 alone pending, and none. -/
theorem witness_pending :
    ((State.reset.pressKey 15).keyAt 15 = true ∧ ∀ j < (15 : Fin 16), (State.reset.pressKey 15).keyAt j = false) ∧
    ∀ k, State.reset.keyAt k = false := by
  decide

/-- DelayTimerIsRead: F007 at the pc, with a running timer. -/
theorem witness_timer_read :
    let s : State := { State.reset with mem := [(0x200, 0xF0), (0x201, 0x07)], dt := 4 };
    s.fault.kind = .none ∧ s.fetch = .ok (BitVec.ofNat 16 (0xF007 + (0 : Reg).val * 0x100)) :=
  ⟨rfl, rfl⟩

end Sys2Proof.Tests
end

section
/-! The words the decoder answers `unknown` for, and the unknown instruction's whole effect (40_step_engine.md R107). -/

namespace Sys2Proof

/-- No named pattern matches, in the form the model's check computes it and in the form of R75. -/
theorem isNamedWord_eq_false_iff (w : Word) :
    isNamedWord w = false ↔ ∀ r ∈ opcodeTable, w &&& r.mask ≠ r.value := by
  simp [isNamedWord, Row.covers]

/-! ### When each family decodes to the unknown instruction -/

theorem decodeFamily0_eq_unknown_iff (w u : Word) :
    decodeFamily0 w = .unknown u ↔ u = w ∧ w.toNat ∉ [0x00E0, 0x00EE] := by
  unfold decodeFamily0
  split <;> simp_all [eq_comm]

theorem decodeFamily8_eq_unknown_iff (w u : Word) :
    decodeFamily8 w = .unknown u ↔ u = w ∧ w.toNat % 16 ∉ [0, 1, 2, 3, 4, 5, 6, 7, 14] := by
  unfold decodeFamily8
  split <;> simp_all [eq_comm]

theorem decodeFamilyE_eq_unknown_iff (w u : Word) :
    decodeFamilyE w = .unknown u ↔ u = w ∧ w.toNat % 256 ∉ [0x9E, 0xA1] := by
  unfold decodeFamilyE
  split <;> simp_all [eq_comm]

theorem decodeFamilyF_eq_unknown_iff (w u : Word) :
    decodeFamilyF w = .unknown u ↔
      u = w ∧ w.toNat % 256 ∉ [0x07, 0x0A, 0x15, 0x18, 0x1E, 0x29, 0x33, 0x55, 0x65] := by
  unfold decodeFamilyF
  split <;> simp_all [eq_comm]

/-- The decoder answers `unknown` exactly on the words no named pattern matches, and the word it carries is that word:
family by family, the decoder's digits are those of `isNamedWord_iff`. -/
theorem decodeWord_eq_unknown_iff (w u : Word) : decodeWord w = .unknown u ↔ u = w ∧ isNamedWord w = false := by
  have hwhole : w.toNat / 0x1000 ≠ 0 → w.toNat ≠ 0x00E0 ∧ w.toNat ≠ 0x00EE := by omega
  rw [← Bool.not_eq_true, isNamedWord_iff]
  unfold decodeWord fieldFamily
  split
  case h_1 hf => simp [hf, decodeFamily0_eq_unknown_iff]
  case h_6 hf | h_10 hf => split_ifs with hn <;> simp [hf, hwhole, hn, eq_comm (a := u)]
  case h_9 hf => simp [hf, hwhole, decodeFamily8_eq_unknown_iff]
  case h_15 hf => simp [hf, hwhole, decodeFamilyE_eq_unknown_iff]
  case h_16 =>
    have hf : w.toNat / 0x1000 = 15 := by simp only [imp_false] at *; omega
    simp [hf, hwhole, decodeFamilyF_eq_unknown_iff]
  -- The families whose top nibble alone names the row.
  all_goals simp [*]

end Sys2Proof

namespace Sys2Proof.Machine

/-- The no-op of R107: PC moves by two, and nothing else changes. -/
theorem exec_unknown (w : Word) (s : State) : exec (.unknown w) s = .next s.advance := rfl

theorem State.advance_pc_toNat (s : State) : s.advance.pc.toNat = (s.pc.toNat + 2) % 65536 :=
  BitVec.toNat_ofNat _ _

/-- Settles O39: a word in no row of the table decodes to `unknown`, whose whole effect is `advance`. -/
theorem unknownWordIsNoOp : Obligations.UnknownWordIsNoOp := by
  intro w hw
  have hdec : decodeWord w = .unknown w :=
    (decodeWord_eq_unknown_iff w w).mpr ⟨rfl, (isNamedWord_eq_false_iff w).mpr hw⟩
  exact ⟨hdec, fun s => ⟨s.advance, exec_unknown w s, s.advance_pc_toNat, changes_advance s⟩⟩

end Sys2Proof.Machine
end

section
/-! The words of the `nnn` layout that decode to the jump, and the jump's whole effect (41_control_flow.md R121). -/

namespace Sys2Proof

/-- Every word of family 1 is a jump (row `JP` of the table). -/
theorem decodeWord_of_family_jp (w : Word) (hf : fieldFamily w = 0x1) : decodeWord w = .jp (fieldNNN w) := by
  simp only [decodeWord, hf]

/-- The encoding `0001 aaaa aaaa aaaa` of R121. -/
theorem decodeWord_layoutNNN_jp (nnn : Addr) : decodeWord (layoutNNN 0x1 nnn) = .jp nnn := by
  obtain ⟨hf, hnnn⟩ := fields_nnn _ 0x1 nnn (layoutNNN_toNat 0x1 nnn (by decide))
  rw [decodeWord_of_family_jp _ hf, hnnn]

end Sys2Proof

namespace Sys2Proof.Machine

/-- The pseudocode of R121: PC becomes the address, and nothing else changes. -/
theorem exec_jp (nnn : Addr) (s : State) : exec (.jp nnn) s = .next (s.jumpTo (addrImm nnn)) := rfl

theorem addrImm_toNat (nnn : Addr) : (addrImm nnn).toNat = nnn.toNat :=
  word_toNat nnn.toNat (by omega)

/-- Settles O32: the word is the layout of row `JP`, and the jump's whole effect is `jumpTo`. -/
theorem jumpSetsPc : Obligations.JumpSetsPc := fun nnn =>
  ⟨decodeWord_layoutNNN_jp nnn, fun s =>
    ⟨s.jumpTo (addrImm nnn), exec_jp nnn s, addrImm_toNat nnn, changes_jumpTo s _⟩⟩

end Sys2Proof.Machine
end

section
/-! The words of the `xnn` layout that decode to the two skips on a byte, and those skips' whole effect (42_skips.md
R130, R131). -/

namespace Sys2Proof

/-- Every word of family 3 is a skip on equality with the byte (row `SE_IMM` of the table). -/
theorem decodeWord_of_family_seImm (w : Word) (hf : fieldFamily w = 0x3) :
    decodeWord w = .seImm (fieldX w) (fieldNN w) := by
  simp only [decodeWord, hf]

/-- Every word of family 4 is a skip on inequality with the byte (row `SNE_IMM` of the table). -/
theorem decodeWord_of_family_sneImm (w : Word) (hf : fieldFamily w = 0x4) :
    decodeWord w = .sneImm (fieldX w) (fieldNN w) := by
  simp only [decodeWord, hf]

/-- The encoding `0011 xxxx kkkk kkkk` of R130. -/
theorem decodeWord_layoutXNN_seImm (x : Reg) (nn : Byte) : decodeWord (layoutXNN 0x3 x nn) = .seImm x nn := by
  obtain ⟨hf, hx, hnn⟩ := fields_xnn _ 0x3 x nn (layoutXNN_toNat 0x3 x nn (by decide))
  rw [decodeWord_of_family_seImm _ hf, hx, hnn]

/-- The encoding `0100 xxxx kkkk kkkk` of R131. -/
theorem decodeWord_layoutXNN_sneImm (x : Reg) (nn : Byte) : decodeWord (layoutXNN 0x4 x nn) = .sneImm x nn := by
  obtain ⟨hf, hx, hnn⟩ := fields_xnn _ 0x4 x nn (layoutXNN_toNat 0x4 x nn (by decide))
  rw [decodeWord_of_family_sneImm _ hf, hx, hnn]

end Sys2Proof

namespace Sys2Proof.Machine

/-! ### Where a skip on a compare leaves PC -/

theorem State.skipIf_pc_toNat (s : State) (c : Bool) :
    (s.skipIf c).pc.toNat = (s.pc.toNat + if c then 4 else 2) % 65536 :=
  BitVec.toNat_ofNat _ _

theorem State.skipIf_beq_pc_toNat (s : State) (a b : Byte) :
    (s.skipIf (a == b)).pc.toNat = (s.pc.toNat + if a = b then 4 else 2) % 65536 := by
  simp only [State.skipIf_pc_toNat, beq_iff_eq]

theorem State.skipIf_bne_pc_toNat (s : State) (a b : Byte) :
    (s.skipIf (a != b)).pc.toNat = (s.pc.toNat + if a = b then 2 else 4) % 65536 := by
  simp only [State.skipIf_pc_toNat, bne_iff_ne, ite_not]

/-! ### The two instructions -/

/-- The pseudocode of R130. -/
theorem exec_seImm (x : Reg) (nn : Byte) (s : State) : exec (.seImm x nn) s = .next (s.skipIf (s.reg x == nn)) := rfl

/-- The pseudocode of R131. -/
theorem exec_sneImm (x : Reg) (nn : Byte) (s : State) : exec (.sneImm x nn) s = .next (s.skipIf (s.reg x != nn)) := rfl

/-- Settles O37: the words are the layouts of rows `SE_IMM` and `SNE_IMM`, and each skip's whole effect is `skipIf` of
its compare. -/
theorem immediateSkipsCompare : Obligations.ImmediateSkipsCompare := fun x nn =>
  ⟨decodeWord_layoutXNN_seImm x nn, decodeWord_layoutXNN_sneImm x nn, fun s =>
    ⟨⟨s.skipIf (s.reg x == nn), exec_seImm x nn s, changes_skipIf s _, s.skipIf_beq_pc_toNat (s.reg x) nn⟩,
      ⟨s.skipIf (s.reg x != nn), exec_sneImm x nn s, changes_skipIf s _, s.skipIf_bne_pc_toNat (s.reg x) nn⟩⟩⟩

end Sys2Proof.Machine
end

section
/-! The words that decode to the register loads and the two additions that take no part in `P_FLAG_ORDER`, and those
instructions' whole effect (43_alu.md R140 to R142, R146). -/

namespace Sys2Proof

/-- Every word of family 6 is a load of a byte (row `LD_IMM` of the table). -/
theorem decodeWord_of_family_ldImm (w : Word) (hf : fieldFamily w = 0x6) :
    decodeWord w = .ldImm (fieldX w) (fieldNN w) := by
  simp only [decodeWord, hf]

/-- Every word of family 7 is an addition of a byte (row `ADD_IMM` of the table). -/
theorem decodeWord_of_family_addImm (w : Word) (hf : fieldFamily w = 0x7) :
    decodeWord w = .addImm (fieldX w) (fieldNN w) := by
  simp only [decodeWord, hf]

/-- Family 8 is decoded by its low nibble. -/
theorem decodeWord_of_family_8 (w : Word) (hf : fieldFamily w = 0x8) : decodeWord w = decodeFamily8 w := by
  simp only [decodeWord, hf]

/-- The encoding `0110 xxxx kkkk kkkk` of R140. -/
theorem decodeWord_layoutXNN_ldImm (x : Reg) (nn : Byte) : decodeWord (layoutXNN 0x6 x nn) = .ldImm x nn := by
  obtain ⟨hf, hx, hnn⟩ := fields_xnn _ 0x6 x nn (layoutXNN_toNat 0x6 x nn (by decide))
  rw [decodeWord_of_family_ldImm _ hf, hx, hnn]

/-- The encoding `0111 xxxx kkkk kkkk` of R141. -/
theorem decodeWord_layoutXNN_addImm (x : Reg) (nn : Byte) : decodeWord (layoutXNN 0x7 x nn) = .addImm x nn := by
  obtain ⟨hf, hx, hnn⟩ := fields_xnn _ 0x7 x nn (layoutXNN_toNat 0x7 x nn (by decide))
  rw [decodeWord_of_family_addImm _ hf, hx, hnn]

/-- The encoding `1000 xxxx yyyy 0000` of R142. -/
theorem decodeWord_layoutXYN_ldReg (x y : Reg) : decodeWord (layoutXYN 0x8 x y 0x0) = .ldReg x y := by
  obtain ⟨hf, hx, hy, hn⟩ :=
    fields_xyn _ 0x8 x y 0x0 (by decide) (layoutXYN_toNat 0x8 x y 0x0 (by decide) (by decide))
  simp only [decodeWord_of_family_8 _ hf, decodeFamily8, hn, hx, hy]

/-- The encoding `1000 xxxx yyyy 0100` of R146. -/
theorem decodeWord_layoutXYN_addReg (x y : Reg) : decodeWord (layoutXYN 0x8 x y 0x4) = .addReg x y := by
  obtain ⟨hf, hx, hy, hn⟩ :=
    fields_xyn _ 0x8 x y 0x4 (by decide) (layoutXYN_toNat 0x8 x y 0x4 (by decide) (by decide))
  simp only [decodeWord_of_family_8 _ hf, decodeFamily8, hn, hx, hy]

/-- The layout's word with its two fixed digits first. -/
theorem layoutXYN_eq_fixed_first (o : Nat) (x y : Reg) (f : Nat) :
    layoutXYN o x y f = BitVec.ofNat 16 (o * 0x1000 + f + x.val * 0x100 + y.val * 0x10) := by
  rw [layoutXYN]
  congr 1
  omega

end Sys2Proof

namespace Sys2Proof.Machine

/-! ### Writing registers and going on -/

theorem changes_setReg_advance (s : State) (x : Reg) (b : Byte) :
    ChangesOnly (fun p => p = .reg x ∨ p = .pc) s (s.setReg x b).advance :=
  ((changes_setReg s x b).mono fun _ => .inl).trans ((changes_advance _).mono fun _ => .inr)

theorem changes_setReg_setReg_advance (s : State) (x z : Reg) (b c : Byte) :
    ChangesOnly (fun p => p = .reg x ∨ p = .reg z ∨ p = .pc) s ((s.setReg x b).setReg z c).advance :=
  ((changes_setReg s x b).mono fun _ => .inl).trans ((changes_setReg_advance _ z c).mono fun _ => .inr)

theorem State.setReg_advance_reg (s : State) (x : Reg) (b : Byte) : (s.setReg x b).advance.reg x = b := by
  rw [State.advance_reg, State.setReg_reg_same]

theorem State.setReg_advance_pc_toNat (s : State) (x : Reg) (b : Byte) :
    (s.setReg x b).advance.pc.toNat = (s.pc.toNat + 2) % 65536 := by
  rw [State.advance_pc_toNat, State.setReg_pc]

/-! ### The values written -/

theorem wrap8_toNat (n : Nat) : (wrap8 n).toNat = n % 256 := BitVec.toNat_ofNat _ _

theorem carryFlag_toNat (a b : Byte) : (carryFlag a b).toNat = if a.toNat + b.toNat > 255 then 1 else 0 := by
  by_cases h : a.toNat + b.toNat > 255 <;> simp [carryFlag, flagByte, h]

/-! ### The four instructions -/

/-- The pseudocode of R140. -/
theorem exec_ldImm (x : Reg) (nn : Byte) (s : State) : exec (.ldImm x nn) s = .next (s.setReg x nn).advance := rfl

/-- The pseudocode of R141: no flag. -/
theorem exec_addImm (x : Reg) (nn : Byte) (s : State) :
    exec (.addImm x nn) s = .next (s.setReg x (wrap8 ((s.reg x).toNat + nn.toNat))).advance := rfl

/-- The pseudocode of R142. -/
theorem exec_ldReg (x y : Reg) (s : State) : exec (.ldReg x y) s = .next (s.setReg x (s.reg y)).advance := rfl

/-- The pseudocode of R146: VF is written after Vx, with the carry of the registers as they were. -/
theorem exec_addReg (x y : Reg) (s : State) :
    exec (.addReg x y) s =
      .next ((s.setReg x (wrap8 ((s.reg x).toNat + (s.reg y).toNat))).setReg VF
        (carryFlag (s.reg x) (s.reg y))).advance := rfl

/-- Settles O40: the words are the layouts of rows `LD_IMM`, `ADD_IMM` and `LD_REG`, and each instruction's whole effect
is one register write before `advance`. -/
theorem loadsAndImmediateAddWriteVx : Obligations.LoadsAndImmediateAddWriteVx := fun x y nn =>
  ⟨decodeWord_layoutXNN_ldImm x nn, decodeWord_layoutXNN_addImm x nn, decodeWord_layoutXYN_ldReg x y, fun s =>
    ⟨⟨_, exec_ldImm x nn s, s.setReg_advance_reg x _, s.setReg_advance_pc_toNat x _, changes_setReg_advance s x _⟩,
      ⟨_, exec_addImm x nn s, by rw [State.setReg_advance_reg, wrap8_toNat], s.setReg_advance_pc_toNat x _,
        changes_setReg_advance s x _⟩,
      ⟨_, exec_ldReg x y s, s.setReg_advance_reg x _, s.setReg_advance_pc_toNat x _, changes_setReg_advance s x _⟩⟩⟩

/-- Settles O42: the word is the layout of row `ADD_REG`. The write of VF comes last, so it leaves the sum in Vx unless
Vx is VF, where the carry wins. -/
theorem addWritesSumThenCarry : Obligations.AddWritesSumThenCarry := by
  intro x y
  refine ⟨layoutXYN_eq_fixed_first 0x8 x y 0x4 ▸ decodeWord_layoutXYN_addReg x y, fun s =>
    ⟨_, exec_addReg x y s, ?pc, ?sum, ?carry, changes_setReg_setReg_advance s x VF _ _⟩⟩
  case pc => rw [State.setReg_advance_pc_toNat, State.setReg_pc]
  case sum =>
    intro hx
    rw [State.advance_reg, State.setReg_reg_other _ _ _ _ hx, State.setReg_reg_same, wrap8_toNat]
  case carry => rw [State.setReg_advance_reg, carryFlag_toNat]

end Sys2Proof.Machine
end

section
/-! The words that decode to the two loads of the index register, and those instructions' whole effect
(44_index_memory.md R160, R162). -/

namespace Sys2Proof

/-- Every word of family A loads the index register (row `LD_I` of the table). -/
theorem decodeWord_of_family_ldI (w : Word) (hf : fieldFamily w = 0xA) : decodeWord w = .ldI (fieldNNN w) := by
  simp only [decodeWord, hf]

/-- Family F is decoded by its low byte. -/
theorem decodeWord_of_family_F (w : Word) (hf : fieldFamily w = 0xF) : decodeWord w = decodeFamilyF w := by
  simp only [decodeWord, hf]

/-- The encoding `1010 aaaa aaaa aaaa` of R160. -/
theorem decodeWord_layoutNNN_ldI (nnn : Addr) : decodeWord (layoutNNN 0xA nnn) = .ldI nnn := by
  obtain ⟨hf, hnnn⟩ := fields_nnn _ 0xA nnn (layoutNNN_toNat 0xA nnn (by decide))
  rw [decodeWord_of_family_ldI _ hf, hnnn]

/-- The encoding `1111 xxxx 0010 1001` of R162. -/
theorem decodeWord_layoutXFF_ldF (x : Reg) : decodeWord (layoutXFF 0xF x 0x29) = .ldF x := by
  obtain ⟨hf, hx, hlow⟩ :=
    fields_xff _ 0xF x 0x29 (by decide) (layoutXFF_toNat 0xF x 0x29 (by decide) (by decide))
  simp only [decodeWord_of_family_F _ hf, decodeFamilyF, hlow, hx]

/-- The layout's word with its fixed digits first. -/
theorem layoutXFF_eq_fixed_first (o : Nat) (x : Reg) (f : Nat) :
    layoutXFF o x f = BitVec.ofNat 16 (o * 0x1000 + f + x.val * 0x100) := by
  rw [layoutXFF, Nat.add_right_comm]

end Sys2Proof

namespace Sys2Proof.Machine

/-! ### Writing the index register and going on -/

theorem changes_setIndex_advance (s : State) (w : Word) :
    ChangesOnly (fun p => p = .index ∨ p = .pc) s (s.setIndex w).advance :=
  ((changes_setIndex s w).mono fun _ => .inl).trans ((changes_advance _).mono fun _ => .inr)

theorem State.setIndex_advance_i (s : State) (w : Word) : (s.setIndex w).advance.i = w := by
  rw [State.advance_i, State.setIndex_i]

theorem State.setIndex_advance_pc_toNat (s : State) (w : Word) :
    (s.setIndex w).advance.pc.toNat = (s.pc.toNat + 2) % 65536 := by
  rw [State.advance_pc_toNat, State.setIndex_pc]

/-- R162's product fits the index register: at most `0xFF * 5 = 0x4FB`, so nothing of Vx is lost. -/
theorem wrap16_byte_mul_five_toNat (b : Byte) : (wrap16 (b.toNat * 5)).toNat = b.toNat * 5 :=
  word_toNat (b.toNat * 5) (by omega)

/-! ### The two instructions -/

/-- The pseudocode of R160. -/
theorem exec_ldI (nnn : Addr) (s : State) : exec (.ldI nnn) s = .next (s.setIndex (addrImm nnn)).advance := rfl

/-- The pseudocode of R162: Vx is not masked. -/
theorem exec_ldF (x : Reg) (s : State) :
    exec (.ldF x) s = .next (s.setIndex (wrap16 ((s.reg x).toNat * 5))).advance := rfl

/-- Settles O48: the words are the layouts of rows `LD_I` and `LD_F`, and each instruction's whole effect is one write
of the index register before `advance`. -/
theorem indexLoads : Obligations.IndexLoads := by
  constructor
  case left =>
    exact fun nnn => ⟨decodeWord_layoutNNN_ldI nnn, fun s =>
      ⟨_, exec_ldI nnn s, by rw [State.setIndex_advance_i, addrImm_toNat], s.setIndex_advance_pc_toNat _,
        changes_setIndex_advance s _⟩⟩
  case right =>
    exact fun x => ⟨layoutXFF_eq_fixed_first 0xF x 0x29 ▸ decodeWord_layoutXFF_ldF x, fun s =>
      ⟨_, exec_ldF x s, by rw [State.setIndex_advance_i, wrap16_byte_mul_five_toNat], s.setIndex_advance_pc_toNat _,
        changes_setIndex_advance s _⟩⟩

end Sys2Proof.Machine
end

section
/-! The words that decode to the read of the delay timer, that instruction's whole effect, and the step that runs it
(46_keypad_timers.md R183). -/

namespace Sys2Proof

/-- The encoding `1111 xxxx 0000 0111` of R183. -/
theorem decodeWord_layoutXFF_ldVDt (x : Reg) : decodeWord (layoutXFF 0xF x 0x07) = .ldVDt x := by
  obtain ⟨hf, hx, hlow⟩ :=
    fields_xff _ 0xF x 0x07 (by decide) (layoutXFF_toNat 0xF x 0x07 (by decide) (by decide))
  simp only [decodeWord_of_family_F _ hf, decodeFamilyF, hlow, hx]

end Sys2Proof

namespace Sys2Proof.Machine

/-- A step that fetches `w`, whose instruction completes in `t` with no fault latched, ends with the tick (R100, R106). -/
theorem step_of_fetch_of_exec {s t : State} {w : Word} (hs : s.halted = false) (hw : s.fetch = .ok w)
    (he : exec (decodeWord w) s = .next t) (ht : t.halted = false) : step s = .next t.tick.nextRnd := by
  simp only [step, hs, hw, he, finishStep, t.endStep_running ht, Bool.false_eq_true, if_false]

/-- The pseudocode of R183. -/
theorem exec_ldVDt (x : Reg) (s : State) : exec (.ldVDt x) s = .next (s.setReg x s.dt).advance := rfl

/-- Settles O59: the word is the layout of row `LD_V_DT`, and the instruction's whole effect is one register write
before `advance`. It leaves DT alone, so the tick of the step that runs it counts down the value read. -/
theorem delayTimerIsRead : Obligations.DelayTimerIsRead := by
  intro x
  have hdec : decodeWord (BitVec.ofNat 16 (0xF007 + x.val * 0x100)) = .ldVDt x :=
    layoutXFF_eq_fixed_first 0xF x 0x07 ▸ decodeWord_layoutXFF_ldVDt x
  refine ⟨hdec, fun s => ⟨?read, ?wholeStep⟩⟩
  case read =>
    exact ⟨_, exec_ldVDt x s, s.setReg_advance_reg x _, s.setReg_advance_pc_toNat x _, changes_setReg_advance s x _⟩
  case wholeStep =>
    intro hkind hfetch
    have hrun : s.halted = false := s.not_halted_iff.mpr hkind
    refine ⟨(s.setReg x s.dt).advance.tick.nextRnd,
      step_of_fetch_of_exec hrun hfetch (hdec ▸ exec_ldVDt x s) hrun, ?vx, ?dt⟩
    case vx => rw [State.nextRnd_reg, State.tick_reg, State.setReg_advance_reg]
    case dt => rw [State.nextRnd_dt, State.tick_dt, State.advance_dt, State.setReg_dt, tickDown_toNat]

end Sys2Proof.Machine
end

section
/-! The two host operations on what the display shows: CONSUME_REDRAW (60_exceptions.md R223) and the framebuffer read
(R224). -/

namespace Sys2Proof.Machine

variable (s : State)

/-! ### CONSUME_REDRAW -/

/-- The flag handed back is the one before the clear (R223). -/
theorem operate_consumeRedraw :
    operate .consumeRedraw (.live s) = .next (.live s.consumeRedraw.2, .bit s.redraw) := rfl

@[simp] theorem State.consumeRedraw_redraw : s.consumeRedraw.2.redraw = false := rfl

/-- A flag that is already clear leaves nothing to clear. -/
theorem State.consumeRedraw_of_clear (h : s.redraw = false) : s.consumeRedraw.2 = s := by
  cases s
  cases h
  rfl

theorem changes_consumeRedraw : ChangesOnly (fun p => p = .redraw) s s.consumeRedraw.2 := by
  intro p hp
  cases p with
  | redraw => exact absurd rfl hp
  | rndInput => exact ⟨rfl, rfl⟩
  | _ => rfl

/-! ### The framebuffer read -/

/-- The state after the read is the state before it, `REDRAW` with it (R224). -/
theorem operate_readFb : operate .readFb (.live s) = .next (.live s, .pixels s.fb) := rfl

/-- Bit `k` of the framebuffer is the cell `FB[k]` of 10_state.md R31. -/
theorem State.fb_getLsbD (k : Nat) : s.fb.getLsbD k = s.pixel k := rfl

end Sys2Proof.Machine

namespace Sys2Proof.Machine

/-- Settles O28: the first call clears the flag and nothing else, so the second call finds it clear and leaves the state
as it is. -/
theorem consumeRedrawReadsAndClears : Obligations.ConsumeRedrawReadsAndClears := by
  intro s
  have hclear : s.consumeRedraw.2.redraw = false := s.consumeRedraw_redraw
  refine ⟨s.consumeRedraw.2, operate_consumeRedraw s, hclear, changes_consumeRedraw s, ?secondCall⟩
  case secondCall => rw [operate_consumeRedraw, State.consumeRedraw_of_clear _ hclear, hclear]

/-- Settles O29: the reply is the framebuffer of the state itself, whose bits are its cells at every index. -/
theorem framebufferReadChangesNothing : Obligations.FramebufferReadChangesNothing :=
  fun s => ⟨s.fb, operate_readFb s, fun x _ y _ => s.fb_getLsbD (y * 64 + x)⟩

end Sys2Proof.Machine
end

section
/-! Decode and encode undo each other (30_encoding.md sections 1 to 4): the fields of each layout's own word, the layout
of each word's own fields, and the rows of the table that cover it. -/

namespace Sys2Proof

/-! ### The fields of a layout's word -/

section fields

variable (o f : Nat) (x y : Reg) (nn : Byte) (nnn : Addr)

@[simp] theorem fieldFamily_layoutNNN (ho : o < 16) : fieldFamily (layoutNNN o nnn) = o :=
  (fields_nnn _ o nnn (layoutNNN_toNat o nnn ho)).1

@[simp] theorem fieldNNN_layoutNNN (ho : o < 16) : fieldNNN (layoutNNN o nnn) = nnn :=
  (fields_nnn _ o nnn (layoutNNN_toNat o nnn ho)).2

@[simp] theorem fieldFamily_layoutXNN (ho : o < 16) : fieldFamily (layoutXNN o x nn) = o :=
  (fields_xnn _ o x nn (layoutXNN_toNat o x nn ho)).1

@[simp] theorem fieldX_layoutXNN (ho : o < 16) : fieldX (layoutXNN o x nn) = x :=
  (fields_xnn _ o x nn (layoutXNN_toNat o x nn ho)).2.1

@[simp] theorem fieldNN_layoutXNN (ho : o < 16) : fieldNN (layoutXNN o x nn) = nn :=
  (fields_xnn _ o x nn (layoutXNN_toNat o x nn ho)).2.2

@[simp] theorem fieldFamily_layoutXYN (ho : o < 16) (hf : f < 16) : fieldFamily (layoutXYN o x y f) = o :=
  (fields_xyn _ o x y f hf (layoutXYN_toNat o x y f ho hf)).1

@[simp] theorem fieldX_layoutXYN (ho : o < 16) (hf : f < 16) : fieldX (layoutXYN o x y f) = x :=
  (fields_xyn _ o x y f hf (layoutXYN_toNat o x y f ho hf)).2.1

@[simp] theorem fieldY_layoutXYN (ho : o < 16) (hf : f < 16) : fieldY (layoutXYN o x y f) = y :=
  (fields_xyn _ o x y f hf (layoutXYN_toNat o x y f ho hf)).2.2.1

@[simp] theorem toNat_mod_16_layoutXYN (ho : o < 16) (hf : f < 16) : (layoutXYN o x y f).toNat % 16 = f :=
  (fields_xyn _ o x y f hf (layoutXYN_toNat o x y f ho hf)).2.2.2

@[simp] theorem fieldN_layoutXYN (n : Fin 16) (ho : o < 16) : fieldN (layoutXYN o x y n.val) = n :=
  fieldN_eq _ _ (toNat_mod_16_layoutXYN o n.val x y ho n.isLt)

@[simp] theorem fieldFamily_layoutXFF (ho : o < 16) (hf : f < 256) : fieldFamily (layoutXFF o x f) = o :=
  (fields_xff _ o x f hf (layoutXFF_toNat o x f ho hf)).1

@[simp] theorem fieldX_layoutXFF (ho : o < 16) (hf : f < 256) : fieldX (layoutXFF o x f) = x :=
  (fields_xff _ o x f hf (layoutXFF_toNat o x f ho hf)).2.1

@[simp] theorem toNat_mod_256_layoutXFF (ho : o < 16) (hf : f < 256) : (layoutXFF o x f).toNat % 256 = f :=
  (fields_xff _ o x f hf (layoutXFF_toNat o x f ho hf)).2.2

end fields

/-- The decoder undoes the encoder: the family of a layout's word picks the branch, its fields are the operands. -/
theorem decodeWord_encode (i : Instr) (h : i.wf = true) : decodeWord (encode i) = i := by
  cases i with
  | cls | ret => decide
  | jp | call | ldI | jpV0 => simp [encode, decodeWord]
  | seImm | sneImm | ldImm | addImm | rnd => simp [encode, decodeWord]
  | seReg | sneReg => simp [encode, decodeWord]
  | ldReg | orReg | andReg | xorReg | addReg | sub | shr | subn | shl => simp [encode, decodeWord, decodeFamily8]
  | drw => simp [encode, decodeWord]
  | skp | sknp => simp [encode, decodeWord, decodeFamilyE]
  | ldVDt | ldK | ldDtV | ldStV | addI | ldF | ldB | ldMemV | ldVMem => simp [encode, decodeWord, decodeFamilyF]
  | unknown w => exact (decodeWord_eq_unknown_iff w w).mpr ⟨rfl, by simpa [Instr.wf] using h⟩

theorem decode_encodeBytes_append (i : Instr) (rest : List Byte) :
    decode (encodeBytes i ++ rest) = .ok (decodeWord (encode i), rest) := by
  rw [encodeBytes, List.cons_append, List.cons_append, List.nil_append, decode_two_bytes, wordOfBytes_high_low]

/-- Settles O1: the two bytes of an instruction make its word, and the decoder undoes the encoder on words. -/
theorem encodedInstructionDecodesBack : Obligations.EncodedInstructionDecodesBack := by
  intro i rest h
  rw [decode_encodeBytes_append, decodeWord_encode i h]

/-! ### The layout of a word's fields -/

section layouts

variable {w : Word} {o f : Nat}

theorem layoutNNN_fields (ho : fieldFamily w = o) : layoutNNN o (fieldNNN w) = w := by
  subst ho
  apply BitVec.eq_of_toNat_eq
  simp only [layoutNNN, fieldFamily, fieldNNN, BitVec.toNat_ofNat]
  omega

theorem layoutXNN_fields (ho : fieldFamily w = o) : layoutXNN o (fieldX w) (fieldNN w) = w := by
  subst ho
  apply BitVec.eq_of_toNat_eq
  simp only [layoutXNN, fieldFamily, fieldX, fieldNN, BitVec.toNat_ofNat]
  omega

theorem layoutXYN_fields (ho : fieldFamily w = o) (hf : w.toNat % 16 = f) :
    layoutXYN o (fieldX w) (fieldY w) f = w := by
  subst ho hf
  apply BitVec.eq_of_toNat_eq
  simp only [layoutXYN, fieldFamily, fieldX, fieldY, BitVec.toNat_ofNat]
  omega

theorem layoutXFF_fields (ho : fieldFamily w = o) (hf : w.toNat % 256 = f) : layoutXFF o (fieldX w) f = w := by
  subst ho hf
  apply BitVec.eq_of_toNat_eq
  simp only [layoutXFF, fieldFamily, fieldX, BitVec.toNat_ofNat]
  omega

end layouts

theorem encode_decodeFamily0 (w : Word) : encode (decodeFamily0 w) = w := by
  unfold decodeFamily0
  split
  case h_1 h | h_2 h => exact (BitVec.eq_of_toNat_eq h).symm
  case h_3 => rfl

theorem encode_decodeFamily8 (w : Word) (hf : fieldFamily w = 0x8) : encode (decodeFamily8 w) = w := by
  unfold decodeFamily8
  split
  case h_10 => rfl
  all_goals exact layoutXYN_fields hf ‹_›

theorem encode_decodeFamilyE (w : Word) (hf : fieldFamily w = 0xE) : encode (decodeFamilyE w) = w := by
  unfold decodeFamilyE
  split
  case h_3 => rfl
  all_goals exact layoutXFF_fields hf ‹_›

theorem encode_decodeFamilyF (w : Word) (hf : fieldFamily w = 0xF) : encode (decodeFamilyF w) = w := by
  unfold decodeFamilyF
  split
  case h_10 => rfl
  all_goals exact layoutXFF_fields hf ‹_›

theorem fieldFamily_lt (w : Word) : fieldFamily w < 16 := by
  unfold fieldFamily
  omega

/-- The encoder undoes the decoder, family by family: each branch lays out the fields it read. -/
theorem encode_decodeWord (w : Word) : encode (decodeWord w) = w := by
  unfold decodeWord
  split
  case h_1 => exact encode_decodeFamily0 w
  case h_2 hf | h_3 hf | h_11 hf | h_12 hf => exact layoutNNN_fields hf
  case h_4 hf | h_5 hf | h_7 hf | h_8 hf | h_13 hf => exact layoutXNN_fields hf
  case h_6 hf | h_10 hf =>
    split
    · exact layoutXYN_fields hf ‹_›
    · rfl
  case h_9 hf => exact encode_decodeFamily8 w hf
  case h_14 hf => exact layoutXYN_fields hf rfl
  case h_15 hf => exact encode_decodeFamilyE w hf
  case h_16 =>
    have hlt := fieldFamily_lt w
    exact encode_decodeFamilyF w (by simp only [imp_false] at *; omega)

theorem wf_of_ne_unknown (i : Instr) (h : ∀ u, i ≠ .unknown u) : i.wf = true := by
  cases i with
  | unknown u => exact absurd rfl (h u)
  | _ => rfl

theorem wf_decodeWord (w : Word) : (decodeWord w).wf = true := by
  by_cases h : isNamedWord w = false
  · rw [(decodeWord_eq_unknown_iff w w).mpr ⟨rfl, h⟩, Instr.wf, h, Bool.not_false]
  · exact wf_of_ne_unknown _ fun u hu => h ((decodeWord_eq_unknown_iff w u).mp hu).2

/-- Settles O2: the decoder answers `unknown` only for unnamed words, and each of its branches lays out the fields it
read. -/
theorem decodedWordEncodesBack : Obligations.DecodedWordEncodesBack :=
  fun w => ⟨wf_decodeWord w, encode_decodeWord w⟩

/-- Settles O3: the decoder's own branches, brought to the table's masks. -/
theorem wordIsUnknownIffNoRowMatches : Obligations.WordIsUnknownIffNoRowMatches := by
  intro w u
  rw [decodeWord_eq_unknown_iff, isNamedWord_eq_false_iff]

/-! ### The rows of the table -/

/-- A word of two rows fixes alike the bits both masks name. -/
theorem values_agree_of_word (w : Word) (r q : Row) (hr : w &&& r.mask = r.value) (hq : w &&& q.mask = q.value) :
    r.value &&& q.mask = q.value &&& r.mask := by
  rw [← hr, ← hq, BitVec.and_assoc, BitVec.and_assoc, BitVec.and_comm r.mask]

/-- No two rows of the table agree on the bits both their masks name (R75). -/
theorem rows_disagree : ∀ j k : Fin opcodeTable.length,
    (opcodeTable.get j).value &&& (opcodeTable.get k).mask = (opcodeTable.get k).value &&& (opcodeTable.get j).mask →
      j = k := by
  decide

/-- Settles O4: a word of two rows would make them agree on the bits both fix, and no two rows do. -/
theorem noWordMatchesTwoRows : Obligations.NoWordMatchesTwoRows :=
  fun w j k hj hk => rows_disagree j k (values_agree_of_word w _ _ hj hk)

/-- Settles O5, by the decoder's computation on each of the nineteen words. -/
theorem sampleWordsDecode : Obligations.SampleWordsDecode := by
  unfold Obligations.SampleWordsDecode
  decide

end Sys2Proof
end

section
/-! How a step ends, and the invariant (10_state.md R35, R37; 40_step_engine.md R100 to R106; 60_exceptions.md R200 to
R203): what every step and every host operation keeps. -/

namespace Sys2Proof.Machine

variable {s t : State} {i : Instr}

/-! ### The end of a step -/

theorem step_of_fetch_error {r : OutOfRange} (hs : s.halted = false) (hf : s.fetch = .error r) :
    step s = .next (s.takeFault r) := by
  simp only [step, hs, hf, Bool.false_eq_true, if_false]

theorem step_of_fetch_ok {w : Word} (hs : s.halted = false) (hf : s.fetch = .ok w) :
    step s = finishStep (exec (decodeWord w) s) := by
  simp only [step, hs, hf, Bool.false_eq_true, if_false]

/-- How a step ends: on a halted block nothing happens; a fault of the fetch or of the instruction is all that happens;
or the instruction completes, and then the timers tick and the random byte is used up. -/
inductive StepEnds (s t : State) : Prop
  | halted (latched : s.halted = true) (same : t = s)
  | fetchFault (running : s.halted = false) (out : ¬ s.rangeInReach s.pc.toNat 2)
      (entry : t = s.takeFault ⟨.fetch, max s.pc.toNat 0x1000⟩)
  | execFault (running : s.halted = false) (w : Word) (fetched : s.fetch = .ok w)
      (executed : exec (decodeWord w) s = .next t) (latched : t.halted = true)
  | completes (running : s.halted = false) (w : Word) (fetched : s.fetch = .ok w) (u : State)
      (executed : exec (decodeWord w) s = .next u) (unlatched : u.halted = false) (ticked : t = u.tick.nextRnd)

theorem step_ends (h : step s = .next t) : StepEnds s t := by
  cases hs : s.halted with
  | true => exact .halted hs (Host.Outcome.next.inj ((step_halted s hs).symm.trans h)).symm
  | false =>
    cases hf : s.fetch with
    | error r =>
      obtain ⟨hout, rfl⟩ := (s.fetch_error_iff r).mp hf
      exact .fetchFault hs hout (Host.Outcome.next.inj ((step_of_fetch_error hs hf).symm.trans h)).symm
    | ok w =>
      rw [step_of_fetch_ok hs hf] at h
      cases he : exec (decodeWord w) s with
      | fault r => exact nomatch r
      | refused r => rw [he] at h; exact nomatch h
      | next u =>
        rw [he] at h
        obtain rfl := Host.Outcome.next.inj h
        cases hu : u.halted with
        | true => rw [u.endStep_halted hu]; exact .execFault hs w hf he hu
        | false => rw [u.endStep_running hu]; exact .completes hs w hf u he hu rfl

/-- An instruction that ends with a fault latched has done nothing but take it. -/
theorem Ends.eq_takeFault (e : Ends i s t) (hs : s.halted = false) (ht : t.halted = true) :
    ∃ r, t = s.takeFault r := by
  cases e with
  | completes latch =>
    rw [State.halted_iff, latch] at ht
    exact absurd ((s.not_halted_iff).mp hs) ht
  | faults r entry => exact ⟨r, entry⟩

/-! ### The invariant -/

/-- With no fault latched the invariant of the latch speaks of the latch alone. -/
theorem latchFits_of_fault_eq (hs : s.halted = false) (hf : t.fault = s.fault) (h : s.latchFits) : t.latchFits := by
  have hk : s.fault.kind = .none := s.not_halted_iff.mp hs
  simp only [State.latchFits, hf, hk] at h ⊢
  exact h

/-- The invariant of the latch reads `PC`, `I`, `SP`, `P_OOB` and the latch. -/
theorem latchFits_congr (hfault : t.fault = s.fault) (hpc : t.pc = s.pc) (hi : t.i = s.i) (hsp : t.sp = s.sp)
    (hparams : t.params = s.params) (h : s.latchFits) : t.latchFits := by
  simpa only [State.latchFits, hfault, hpc, hi, hsp, hparams] using h

theorem wrap16_toNat_of_lt {n : Nat} (h : n < 0x10000) : (wrap16 n).toNat = n := word_toNat n h

theorem latchFits_fetchFault (h : ¬ s.rangeInReach s.pc.toNat 2) :
    (s.takeFault ⟨.fetch, max s.pc.toNat 0x1000⟩).latchFits := by
  obtain ⟨-, hpc, hoob⟩ := (s.not_rangeInReach_iff _ _).mp h
  exact ⟨rfl, hoob, by simp only [State.takeFault_pc]; omega,
    wrap16_toNat_of_lt (show max s.pc.toNat 0x1000 < 0x10000 by omega)⟩

/-- The latch of a data access that left memory, read or write. -/
theorem latchFits_dataFault {value : Nat} (h : ¬ s.rangeInReach s.i.toNat 16) (hv : value = max s.i.toNat 0x1000) :
    s.params.oob = .fault ∧ 0xFFF < s.i.toNat + 15 ∧ (wrap16 value).toNat = max s.i.toNat 0x1000 := by
  obtain ⟨-, hi, hoob⟩ := (s.not_rangeInReach_iff _ _).mp h
  subst hv
  exact ⟨hoob, by omega, wrap16_toNat_of_lt (by omega)⟩

theorem latchFits_keyFault {value : Nat} (hlow : 15 < value) (hhigh : value < 256) :
    0xF < (wrap16 value).toNat ∧ (wrap16 value).toNat ≤ 0xFF := by
  rw [wrap16_toNat_of_lt (by omega)]
  omega

theorem Ends.keeps_latchFits (e : Ends i s t) (hs : s.halted = false) (h : s.latchFits) : t.latchFits := by
  cases e with
  | completes latch => exact latchFits_of_fault_eq hs latch h
  | faults r entry why =>
    subst entry
    obtain ⟨kind, value⟩ := r
    cases kind with
    | none | fetch => exact why.elim
    | read | write =>
      obtain ⟨hout, hvalue, -⟩ := why
      exact ⟨rfl, latchFits_dataFault hout hvalue⟩
    | key =>
      obtain ⟨hoob, hlow, hhigh, -⟩ := why
      exact ⟨rfl, hoob, latchFits_keyFault hlow hhigh⟩
    | stackOverflow =>
      obtain ⟨hsp, rfl, -⟩ := why
      exact ⟨rfl, hsp, rfl⟩
    | stackUnderflow =>
      obtain ⟨hsp, rfl, -⟩ := why
      exact ⟨rfl, hsp, rfl⟩

theorem Ends.keeps_memory (e : Ends i s t) (h : Memory.wf s.params.font s.mem) : Memory.wf t.params.font t.mem := by
  cases e with
  | completes _ _ memory => exact memory h
  | faults r entry => subst entry; exact h

theorem Ends.keeps_inv (e : Ends i s t) (hs : s.halted = false) (h : s.Inv) : t.Inv :=
  ⟨e.keeps_memory h.memory, e.keeps_latchFits hs h.latch⟩

/-- The tick and the random input are no part of the invariant. -/
theorem inv_tick_nextRnd (h : s.Inv) : s.tick.nextRnd.Inv := ⟨h.memory, h.latch⟩

/-- Settles O13: however the step ends, memory is canonical and the latch fits; the instruction's part is
`Ends.keeps_inv`. -/
theorem stepKeepsInvariant : Obligations.StepKeepsInvariant := by
  intro s t h hstep
  cases step_ends hstep with
  | halted _ same => exact same ▸ h
  | fetchFault _ out entry => exact entry ▸ ⟨h.memory, latchFits_fetchFault out⟩
  | execFault running w _ executed => exact (exec_ends _ _ _ executed).keeps_inv running h
  | completes running w _ u executed _ ticked =>
    exact ticked ▸ inv_tick_nextRnd ((exec_ends _ _ _ executed).keeps_inv running h)

theorem init_inv (p : Params) : (State.init p).Inv := ⟨State.init_memory_wf p, rfl, rfl⟩

/-- Settles O14: after INIT no cell is listed and the latch is clear. -/
theorem resetMeetsInvariant : Obligations.ResetMeetsInvariant := ⟨init_inv, init_inv Params.default⟩

/-! ### The host's operations -/

/-- What LOAD leaves: the state itself when the image is too long, else the image copied inside the address space. -/
theorem load_cases (s : State) (rom : List Byte) :
    (3584 < rom.length ∧ s.load rom = (.romTooLarge, s)) ∨
    (0x200 + rom.length ≤ 0x1000 ∧ s.load rom = (.ok, State.copyBytes rom 0x200 s)) := by
  by_cases h : rom.length > 3584
  · exact .inl ⟨h, by simp only [State.load, h, if_true]⟩
  · exact .inr ⟨by omega, by simp only [State.load, h, if_false]⟩

theorem load_keeps_inv (rom : List Byte) (h : s.Inv) : (s.load rom).2.Inv := by
  rcases load_cases s rom with ⟨-, e⟩ | ⟨hlen, e⟩
  · rw [e]; exact h
  · rw [e]
    obtain ⟨hmem, -, -, hwf⟩ := copyBytes_spec s rom 0x200 hlen
    refine ⟨hwf h.memory, latchFits_congr ?_ ?_ ?_ ?_ ?_ h.latch⟩ <;> rw [hmem]

/-- What STEP(b) leaves is what the step of `R100` leaves with `b` put first, the bytes for later steps restored. -/
theorem stepRnd_next {b : Byte} (h : s.stepRnd b = .next t) :
    ∃ u, step { s with rndIn := b :: s.rndIn } = .next u ∧ t = { u with rndIn := s.rndIn } := by
  unfold State.stepRnd at h
  split at h
  case h_1 u hu => exact ⟨u, hu, (Host.Outcome.next.inj h).symm⟩
  case h_2 | h_3 => exact nomatch h

theorem stepRnd_keeps_inv {b : Byte} (h : s.Inv) (hstep : s.stepRnd b = .next t) : t.Inv := by
  obtain ⟨u, hu, rfl⟩ := stepRnd_next hstep
  have hs : State.Inv { s with rndIn := b :: s.rndIn } := ⟨h.memory, h.latch⟩
  have hu' : u.Inv := stepKeepsInvariant _ u hs hu
  exact ⟨hu'.memory, hu'.latch⟩

/-- The state an operation leaves on a live block. -/
theorem operate_live_next {op : Operation} {r : Reply} (h : operate op (.live s) = .next (.live t, r)) :
    match op with
    | .init => t = s.reinit
    | .load rom => t = (s.load rom).2
    | .step b => s.stepRnd b = .next t
    | .setKey k => t = s.pressKey k
    | .consumeRedraw => t = s.consumeRedraw.2
    | .readFb | .readSound | .readState => t = s := by
  cases op with
  | step b =>
    simp only [operate, operateLive] at h
    split at h
    case h_1 u hu => cases h; exact hu
    case h_2 | h_3 => exact nomatch h
  | _ => cases h; rfl

theorem reinit_inv (s : State) : s.reinit.Inv := ⟨(init_inv s.params).memory, (init_inv s.params).latch⟩

theorem operate_keeps_inv {op : Operation} {r : Reply} (h : s.Inv) (hop : operate op (.live s) = .next (.live t, r)) :
    t.Inv := by
  have ht := operate_live_next hop
  cases op with
  | init => exact ht ▸ reinit_inv s
  | load rom => exact ht ▸ load_keeps_inv rom h
  | step b => exact stepRnd_keeps_inv h ht
  | setKey | consumeRedraw | readFb | readSound | readState => exact ht ▸ ⟨h.memory, h.latch⟩

theorem operate_init_inv {b : Block} {r : Reply} (h : operate .init b = .next (.live t, r)) : t.Inv := by
  cases b with
  | built p => cases h; exact init_inv p
  | live s => exact operate_live_next h ▸ reinit_inv s

/-- Settles O15: LOAD copies inside the address space, STEP is a step, INIT starts afresh, and the rest touch neither
memory nor the latch nor what the latch must fit. -/
theorem hostOperationsKeepInvariant : Obligations.HostOperationsKeepInvariant :=
  ⟨fun _ _ _ _ => operate_keeps_inv, fun _ _ _ => operate_init_inv⟩

end Sys2Proof.Machine
end

section
/-! The writers of each part of the state (10_state.md R22 to R36), and that `exec` keeps to them. -/

namespace Sys2Proof.Machine

variable {s t : State} {i : Instr}

/-- The instructions the state rules name as the writers of a part, and for a register the registers each of them may
write (R22, R25 to R29, R32, R34, R36; the latch: 60_exceptions.md R200). -/
def StatePart.WrittenBy (p : StatePart) (i : Instr) : Prop :=
  match p with
  | .reg r =>
    match i with
    | .ldImm x _ | .addImm x _ | .ldReg x _ | .orReg x _ | .andReg x _ | .xorReg x _ | .rnd x _ | .ldVDt x | .ldK x =>
      r = x
    | .addReg x _ | .sub x _ | .shr x _ | .subn x _ | .shl x _ => r = x ∨ r = VF
    | .drw _ _ _ => r = VF
    | .ldVMem x => r ≤ x
    | _ => False
  | .pc => True
  | .index => match i with | .ldI _ | .addI _ | .ldF _ => True | _ => False
  | .stackEntry _ => match i with | .call _ => True | _ => False
  | .sp => match i with | .call _ | .ret => True | _ => False
  | .dt => match i with | .ldDtV _ => True | _ => False
  | .st => match i with | .ldStV _ => True | _ => False
  | .pixel _ => match i with | .cls | .drw _ _ _ => True | _ => False
  | .key _ => match i with | .sknp _ | .ldK _ => True | _ => False
  | .byte _ => match i with | .ldB _ | .ldMemV _ => True | _ => False
  | .redraw => match i with | .drw _ _ _ => True | _ => False
  | .fault =>
    match i with
    | .ret | .call _ | .skp _ | .sknp _ | .drw _ _ _ | .ldB _ | .ldMemV _ | .ldVMem _ => True
    | _ => False
  | .params | .rndInput => False

/-! ### Frames of the effects that have none yet -/

theorem changes_takeFault (s : State) (r : OutOfRange) : ChangesOnly (fun p => p = .fault) s (s.takeFault r) := by
  intro p hp
  cases p with
  | fault => exact absurd rfl hp
  | rndInput => exact ⟨rfl, rfl⟩
  | _ => rfl

theorem changes_ret (s : State) (sp : Fin 17) (pc : Word) :
    ChangesOnly (fun p => p = .pc ∨ p = .sp) s { s with sp := sp, pc := pc } := by
  intro p hp
  cases p with
  | pc => exact absurd (.inl rfl) hp
  | sp => exact absurd (.inr rfl) hp
  | rndInput => exact ⟨rfl, rfl⟩
  | _ => rfl

theorem changes_call (s : State) (h : s.sp.val < 16) (sp : Fin 17) (w pc : Word) :
    ChangesOnly (fun p => p = .pc ∨ p = .sp ∨ p = .stackEntry ⟨s.sp.val, h⟩) s
      { s with stack := s.stack.set s.sp.val w h, sp := sp, pc := pc } := by
  intro p hp
  cases p with
  | pc => exact absurd (.inl rfl) hp
  | sp => exact absurd (.inr (.inl rfl)) hp
  | stackEntry k =>
    have hk : s.sp.val ≠ k.val := fun e => hp (.inr (.inr (congrArg _ (Fin.ext e.symm))))
    exact Vector.getElem_set_ne h k.isLt hk
  | rndInput => exact ⟨rfl, rfl⟩
  | _ => rfl

theorem changes_cls (s : State) (fb : BitVec 2048) :
    ChangesOnly (fun p => p = .pc ∨ ∃ k, p = .pixel k) s { s with fb := fb }.advance := by
  intro p hp
  cases p with
  | pc => exact absurd (.inl rfl) hp
  | pixel k => exact absurd (.inr ⟨k, rfl⟩) hp
  | rndInput => exact ⟨rfl, rfl⟩
  | _ => rfl

theorem changes_dt (s : State) (b : Byte) : ChangesOnly (fun p => p = .dt ∨ p = .pc) s { s with dt := b }.advance := by
  intro p hp
  cases p with
  | pc => exact absurd (.inr rfl) hp
  | dt => exact absurd (.inl rfl) hp
  | rndInput => exact ⟨rfl, rfl⟩
  | _ => rfl

theorem changes_st (s : State) (b : Byte) : ChangesOnly (fun p => p = .st ∨ p = .pc) s { s with st := b }.advance := by
  intro p hp
  cases p with
  | pc => exact absurd (.inr rfl) hp
  | st => exact absurd (.inl rfl) hp
  | rndInput => exact ⟨rfl, rfl⟩
  | _ => rfl

theorem changes_setKeyCell_advance (s : State) (k : Fin 16) (b : Bool) :
    ChangesOnly (fun p => p = .pc ∨ p = .key k) s (s.setKeyCell k b).advance :=
  ((changes_setKeyCell s k b).mono fun _ => .inr).trans ((changes_advance _).mono fun _ => .inl)

theorem changes_setReg_setKeyCell_advance (s : State) (x : Reg) (b : Byte) (k : Fin 16) (c : Bool) :
    ChangesOnly (fun p => p = .reg x ∨ p = .key k ∨ p = .pc) s ((s.setReg x b).setKeyCell k c).advance :=
  ((changes_setReg s x b).mono fun _ => .inl).trans
    ((changes_setKeyCell_advance _ k c).mono fun _ h => .inr h.symm)

theorem changes_flagAndResult_advance (s : State) (x y : Reg) (flag result : Byte → Byte → Byte) :
    ChangesOnly (fun p => p = .reg x ∨ p = .reg VF ∨ p = .pc) s (s.flagAndResult x y flag result).advance :=
  ((changes_flagAndResult s x y flag result).mono fun _ h => h.imp_right .inl).trans
    ((changes_advance _).mono fun _ h => .inr (.inr h))

/-- A run of writes and the advance change the bytes of the run and `PC`. -/
theorem changes_writeBytes_advance {bs : List Byte} {a : Nat} (h : State.writeBytes bs a s = .ok t) :
    ChangesOnly (fun p => p = .pc ∨ ∃ k < bs.length, p = .byte ((a + k) % 0x1000)) s t.advance :=
  ((changes_writeBytes s bs a t h).mono fun _ => .inr).trans ((changes_advance t).mono fun _ => .inl)

/-- Loading V0 to Vx and the advance change those registers and `PC`. -/
theorem changes_setRegs_advance (s : State) (x : Reg) (bs : List Byte) (h : bs.length = x.val + 1) :
    ChangesOnly (fun p => p = .pc ∨ ∃ k : Reg, k ≤ x ∧ p = .reg k) s (State.setRegs bs 0 s).advance := by
  refine ((changes_setRegs s bs 0 (by omega)).mono ?_).trans ((changes_advance _).mono fun _ => .inl)
  rintro p ⟨k, -, hk, rfl⟩
  exact .inr ⟨k, Fin.le_def.mpr (by omega), rfl⟩

/-- A draw changes VF, the framebuffer, `REDRAW` and `PC`. -/
theorem changes_draw (s : State) (b : Byte) (fb : BitVec 2048) (r : Bool) :
    ChangesOnly (fun p => p = .pc ∨ p = .reg VF ∨ p = .redraw ∨ ∃ k, p = .pixel k) s
      { s.setReg VF b with fb := fb, redraw := r }.advance :=
  ((changes_setReg s VF b).mono fun _ h => .inr (.inl h)).trans <|
    ((changes_display _ fb r).mono fun _ h => .inr (.inr h)).trans <|
      (changes_advance _).mono fun _ => .inl

/-! ### `exec` keeps to the writers -/

/-- A fault of an instruction that may raise one. -/
theorem takeFault_within (s : State) (r : OutOfRange) (h : StatePart.fault.WrittenBy i) :
    ChangesOnly (fun p => p.WrittenBy i) s (s.takeFault r) :=
  (changes_takeFault s r).mono fun _ hp => hp ▸ h

theorem storeAtIndex_changes {bs : List Byte} (hi : match i with | .ldB _ | .ldMemV _ => True | _ => False)
    (h : complete s (s.storeAtIndex bs) = .next t) : ChangesOnly (fun p => p.WrittenBy i) s t := by
  have hfault : StatePart.fault.WrittenBy i := by
    cases i with
    | ldB | ldMemV => trivial
    | _ => exact hi.elim
  rcases storeAtIndex_cases s bs with ⟨-, u, hu, e⟩ | ⟨-, e⟩
  all_goals obtain rfl := Host.Outcome.next.inj (e.symm.trans h)
  · refine (changes_writeBytes_advance hu).mono ?_
    rintro p (rfl | ⟨k, -, rfl⟩)
    exacts [trivial, hi]
  · exact takeFault_within s _ hfault

/-- No instruction changes a part it is no writer of (R43; D16). -/
theorem exec_changes (h : exec i s = .next t) : ChangesOnly (fun p => p.WrittenBy i) s t := by
  cases i with
  | cls =>
    obtain rfl := Host.Outcome.next.inj h
    refine (changes_cls s 0).mono ?_
    rintro p (rfl | ⟨k, rfl⟩) <;> trivial
  | ret =>
    rcases execRet_cases s with ⟨-, e⟩ | ⟨-, e⟩
    all_goals obtain rfl := Host.Outcome.next.inj (e.symm.trans h)
    · exact takeFault_within s _ trivial
    · refine (changes_ret s _ _).mono ?_
      rintro p (rfl | rfl) <;> trivial
  | call nnn =>
    rcases execCall_cases s nnn with ⟨hsp, e⟩ | ⟨-, e⟩
    all_goals obtain rfl := Host.Outcome.next.inj (e.symm.trans h)
    · refine (changes_call s hsp _ _ _).mono ?_
      rintro p (rfl | rfl | rfl) <;> trivial
    · exact takeFault_within s _ trivial
  | jp | jpV0 | seImm | sneImm | seReg | sneReg | unknown =>
    obtain rfl := Host.Outcome.next.inj h
    refine (changes_jumpTo s _).mono ?_
    rintro p rfl; trivial
  | ldImm x | addImm x | ldReg x | orReg x | andReg x | xorReg x | rnd x | ldVDt x =>
    obtain rfl := Host.Outcome.next.inj h
    refine (changes_setReg_advance s x _).mono ?_
    rintro p (rfl | rfl)
    exacts [rfl, trivial]
  | addReg x =>
    obtain rfl := Host.Outcome.next.inj h
    refine (changes_setReg_setReg_advance s x VF _ _).mono ?_
    rintro p (rfl | rfl | rfl)
    exacts [.inl rfl, .inr rfl, trivial]
  | sub x y | shr x y | subn x y | shl x y =>
    obtain rfl := Host.Outcome.next.inj h
    refine (changes_flagAndResult_advance s x y _ _).mono ?_
    rintro p (rfl | rfl | rfl)
    exacts [.inl rfl, .inr rfl, trivial]
  | ldI | addI | ldF =>
    obtain rfl := Host.Outcome.next.inj h
    refine (changes_setIndex_advance s _).mono ?_
    rintro p (rfl | rfl) <;> trivial
  | drw x y n =>
    rcases execDrw_cases s x y n with ⟨-, e⟩ | ⟨-, e⟩
    all_goals obtain rfl := Host.Outcome.next.inj (e.symm.trans h)
    · refine (changes_draw s _ _ _).mono ?_
      rintro p (rfl | rfl | rfl | ⟨k, rfl⟩)
      exacts [trivial, rfl, trivial, trivial]
    · exact takeFault_within s _ trivial
  | skp x =>
    rcases execSkp_cases s x with ⟨-, e⟩ | ⟨-, e⟩
    all_goals obtain rfl := Host.Outcome.next.inj (e.symm.trans h)
    · refine (changes_skipIf s _).mono ?_
      rintro p rfl; trivial
    · exact takeFault_within s _ trivial
  | sknp x =>
    rcases execSknp_cases s x with ⟨-, k, -, e⟩ | ⟨-, e⟩
    all_goals obtain rfl := Host.Outcome.next.inj (e.symm.trans h)
    · split
      · refine (changes_setKeyCell_advance s k _).mono ?_
        rintro p (rfl | rfl) <;> trivial
      · refine (changes_skipIf s _).mono ?_
        rintro p rfl; trivial
    · exact takeFault_within s _ trivial
  | ldK x =>
    rcases execLdK_cases s x with ⟨k, -, e⟩ | ⟨-, e⟩
    all_goals obtain rfl := Host.Outcome.next.inj (e.symm.trans h)
    · refine (changes_setReg_setKeyCell_advance s x _ k _).mono ?_
      rintro p (rfl | rfl | rfl)
      exacts [rfl, trivial, trivial]
    · exact ChangesOnly.refl _ _
  | ldDtV x =>
    obtain rfl := Host.Outcome.next.inj h
    refine (changes_dt s _).mono ?_
    rintro p (rfl | rfl) <;> trivial
  | ldStV x =>
    obtain rfl := Host.Outcome.next.inj h
    refine (changes_st s _).mono ?_
    rintro p (rfl | rfl) <;> trivial
  | ldB | ldMemV => exact storeAtIndex_changes trivial h
  | ldVMem x =>
    rcases execLdVMem_cases s x with ⟨-, e⟩ | ⟨-, e⟩
    all_goals obtain rfl := Host.Outcome.next.inj (e.symm.trans h)
    · refine (changes_setRegs_advance s x _ (by simp)).mono ?_
      rintro p (rfl | ⟨k, hk, rfl⟩)
      exacts [trivial, hk]
    · exact takeFault_within s _ trivial

/-- A part that is not the same was one of the parts allowed to change. -/
theorem ChangesOnly.may_of_not_same {may : StatePart → Prop} (h : ChangesOnly may s t) {p : StatePart}
    (hp : ¬ p.same s t) : may p :=
  Classical.byContradiction fun hm => hp (h p hm)

/-- What an instruction changed it is a writer of. -/
theorem writtenBy_of_not_same (h : exec i s = .next t) {p : StatePart} (hp : ¬ p.same s t) : p.WrittenBy i :=
  (exec_changes h).may_of_not_same hp

/-- Settles O16: the writers of a register are those of `StatePart.WrittenBy`. -/
theorem onlyListedInstructionsWriteRegisters : Obligations.OnlyListedInstructionsWriteRegisters :=
  fun _ _ _ r h hr => writtenBy_of_not_same h (p := .reg r) hr

/-! ### Whole elements, and the direction of a change -/

theorem exists_stackEntry_of_ne (h : t.stack ≠ s.stack) : ∃ k, ¬ (StatePart.stackEntry k).same s t := by
  refine not_forall.mp fun hall => h (Vector.ext fun k hk => ?_)
  exact hall ⟨k, hk⟩

theorem exists_pixel_of_ne (h : t.fb ≠ s.fb) : ∃ k, ¬ (StatePart.pixel k).same s t :=
  not_forall.mp fun hall => h (BitVec.eq_of_getLsbD_eq fun k _ => hall k)

theorem keyAt_of_setKeyCell_false_ne {j k : Fin 16} (h : (s.setKeyCell j false).keyAt k ≠ s.keyAt k) :
    (s.setKeyCell j false).keyAt k = false := by
  rw [State.setKeyCell_keyAt] at h ⊢
  split
  · rfl
  · exact absurd (if_neg ‹_›) h

/-- A key that changed was consumed (R34). -/
theorem exec_clears_key (h : exec i s = .next t) (k : Fin 16) (hk : t.keyAt k ≠ s.keyAt k) : t.keyAt k = false := by
  have hw := writtenBy_of_not_same h (p := .key k) hk
  cases i with
  | sknp x =>
    rcases execSknp_cases s x with ⟨-, j, -, e⟩ | ⟨-, e⟩
    all_goals obtain rfl := Host.Outcome.next.inj (e.symm.trans h)
    · split at hk
      · rw [if_pos ‹_›]; exact keyAt_of_setKeyCell_false_ne hk
      · exact absurd rfl hk
    · exact absurd rfl hk
  | ldK x =>
    rcases execLdK_cases s x with ⟨j, -, e⟩ | ⟨-, e⟩
    all_goals obtain rfl := Host.Outcome.next.inj (e.symm.trans h)
    · exact keyAt_of_setKeyCell_false_ne (s := s.setReg x (wrap8 j.val)) hk
    · exact absurd rfl hk
  | _ => exact hw.elim

/-- A changed `REDRAW` was set (R36). -/
theorem exec_sets_redraw (h : exec i s = .next t) (hr : t.redraw ≠ s.redraw) : t.redraw = true := by
  have hw := writtenBy_of_not_same h (p := .redraw) hr
  cases i with
  | drw x y n =>
    rcases execDrw_cases s x y n with ⟨-, e⟩ | ⟨-, e⟩
    all_goals obtain rfl := Host.Outcome.next.inj (e.symm.trans h)
    · rfl
    · exact absurd rfl hr
  | _ => exact hw.elim

/-- Settles O17: the writers of each element are those of `StatePart.WrittenBy`; the stack and the framebuffer differ as
wholes only where an entry or a cell does. -/
theorem onlyListedInstructionsWriteOtherState : Obligations.OnlyListedInstructionsWriteOtherState := by
  intro i s t h
  refine ⟨writtenBy_of_not_same h (p := .index), ?stack, writtenBy_of_not_same h (p := .sp),
    writtenBy_of_not_same h (p := .dt), writtenBy_of_not_same h (p := .st), ?fb, fun k hk => ⟨exec_clears_key h k hk,
      writtenBy_of_not_same h (p := .key k) hk⟩, fun a => writtenBy_of_not_same h (p := .byte a), fun hr =>
      ⟨exec_sets_redraw h hr, writtenBy_of_not_same h (p := .redraw) hr⟩, exec_changes h .params id⟩
  case stack =>
    intro hne
    obtain ⟨k, hk⟩ := exists_stackEntry_of_ne hne
    exact writtenBy_of_not_same h hk
  case fb =>
    intro hne
    obtain ⟨k, hk⟩ := exists_pixel_of_ne hne
    exact writtenBy_of_not_same h hk

end Sys2Proof.Machine
end

section
/-! What the whole step answers: the next state, the precise fault, the tick (40_step_engine.md R100 to R106). -/

namespace Sys2Proof.Machine

variable {s t : State} {i : Instr}

/-! ### A next state, always -/

theorem complete_answers_next (s : State) (e : Except OutOfRange State) : ∃ t, complete s e = .next t := by
  cases e with
  | ok t => exact ⟨t, complete_ok s t⟩
  | error r => exact ⟨_, complete_error s r⟩

theorem exec_answers_next (i : Instr) (s : State) : ∃ t, exec i s = .next t := by
  cases i with
  | ret | call | drw | skp | sknp | ldB | ldMemV | ldVMem => exact complete_answers_next s _
  | ldK x =>
    rcases execLdK_cases s x with ⟨k, -, e⟩ | ⟨-, e⟩
    · exact ⟨_, e⟩
    · exact ⟨s, e⟩
  | _ => exact ⟨_, rfl⟩

theorem step_answers_next (s : State) : ∃ t, step s = .next t := by
  rcases step_cases s with ⟨-, e⟩ | ⟨-, -, e⟩ | ⟨-, -, e⟩
  · exact ⟨_, e⟩
  · exact ⟨_, e⟩
  · obtain ⟨u, hu⟩ := exec_answers_next _ s
    exact ⟨u.endStep, by rw [e, hu, finishStep]⟩

/-- Settles O9: an instruction completes, waits or takes a fault, each a next state, and so does the step around it. -/
theorem everyStepAnswersNextState : Obligations.EveryStepAnswersNextState := ⟨exec_answers_next, step_answers_next⟩

/-! ### Faults -/

/-- Settles O10: a step that ends with a fault latched has taken it, and taking it writes the latch alone. -/
theorem faultsArePrecise : Obligations.FaultsArePrecise := by
  intro s t hk hstep ht
  have hs : s.halted = false := s.not_halted_iff.mpr hk
  have htaken : ∃ r, t = s.takeFault r := by
    cases step_ends hstep with
    | halted latched => exact absurd hk (s.halted_iff.mp latched)
    | fetchFault _ _ entry => exact ⟨_, entry⟩
    | execFault _ w _ executed latched => exact (exec_ends _ _ _ executed).eq_takeFault hs latched
    | completes _ w _ u _ unlatched ticked => subst ticked; exact absurd (u.not_halted_iff.mp unlatched) ht
  obtain ⟨r, rfl⟩ := htaken
  exact ⟨rfl, rfl⟩

/-- Settles O11: a latched fault is one of `Ends.faults`, which names the instructions of each kind. -/
theorem onlyListedInstructionsRaise : Obligations.OnlyListedInstructionsRaise := by
  intro i s t hk h ht
  cases exec_ends i s t h with
  | completes latch => exact absurd hk (latch ▸ ht)
  | faults r entry why =>
    subst entry
    obtain ⟨kind, value⟩ := r
    cases kind with
    | none | fetch => exact why.elim
    | read =>
      obtain ⟨-, -, hi⟩ := why
      cases i with
      | drw | ldVMem => rfl
      | _ => exact hi.elim
    | write =>
      obtain ⟨-, -, hi⟩ := why
      cases i with
      | ldB | ldMemV => rfl
      | _ => exact hi.elim
    | key =>
      obtain ⟨-, -, -, hi⟩ := why
      cases i with
      | skp | sknp => rfl
      | _ => exact hi.elim
    | stackOverflow =>
      obtain ⟨-, -, hi⟩ := why
      cases i with
      | call => rfl
      | _ => exact hi.elim
    | stackUnderflow =>
      obtain ⟨-, -, hi⟩ := why
      cases i with
      | ret => rfl
      | _ => exact hi.elim

theorem rangeInReach_of_wrap (h : s.params.oob = .wrap) (a n : Nat) : s.rangeInReach a n :=
  .inr (s.inReach_of_wrap _ h)

/-- Under `WRAP` an instruction latches a fault of the stack or none (R50, R51). -/
theorem Ends.kind_of_wrap (e : Ends i s t) (hk : s.fault.kind = .none) (hwrap : s.params.oob = .wrap) :
    t.fault.kind = .none ∨ t.fault.kind = .stackOverflow ∨ t.fault.kind = .stackUnderflow := by
  cases e with
  | completes latch => exact .inl (latch ▸ hk)
  | faults r entry why =>
    subst entry
    obtain ⟨kind, value⟩ := r
    cases kind with
    | none | fetch => exact why.elim
    | read | write => exact absurd (rangeInReach_of_wrap hwrap _ _) why.1
    | key => exact nomatch hwrap.symm.trans why.1
    | stackOverflow => exact .inr (.inl rfl)
    | stackUnderflow => exact .inr (.inr rfl)

/-- Settles O12: under `WRAP` every fetch reaches, and the instruction's part is `Ends.kind_of_wrap`. -/
theorem wrapBlockFaultsOnlyOnTheStack : Obligations.WrapBlockFaultsOnlyOnTheStack := by
  intro s t hk hwrap hstep
  cases step_ends hstep with
  | halted latched => exact absurd hk (s.halted_iff.mp latched)
  | fetchFault _ out => exact absurd (rangeInReach_of_wrap hwrap _ _) out
  | execFault _ w _ executed => exact (exec_ends _ _ _ executed).kind_of_wrap hk hwrap
  | completes _ w _ u _ unlatched ticked => subst ticked; exact .inl (u.not_halted_iff.mp unlatched)

/-- Where the fetch of a `PC` at or above 0xFFF first leaves memory (R102). -/
theorem wrap16_first_fetch_fault {pc : Word} (h : 0xFFF ≤ pc.toNat) :
    wrap16 (max pc.toNat 0x1000) = if pc = 0xFFF then 0x1000 else pc := by
  split
  case isTrue e => subst e; rfl
  case isFalse e =>
    have hne : pc.toNat ≠ 0xFFF := fun e' => e (BitVec.eq_of_toNat_eq e')
    rw [Nat.max_eq_left (by omega), wrap16, BitVec.ofNat_toNat, BitVec.setWidth_eq]

/-- Settles O8: the fetch does not reach, and the fault is all the step does. -/
theorem fetchBeyondMemoryFaults : Obligations.FetchBeyondMemoryFaults := by
  intro s hk hoob hpc
  have hout : ¬ s.rangeInReach s.pc.toNat 2 := (s.not_rangeInReach_iff _ _).mpr ⟨by decide, by omega, hoob⟩
  rw [step_of_fetch_error (s.not_halted_iff.mpr hk) ((s.fetch_error_iff _).mpr ⟨hout, rfl⟩), State.takeFault,
    wrap16_first_fetch_fault hpc]

/-! ### The halted block -/

theorem stepRnd_halted (h : s.halted = true) (b : Byte) : s.stepRnd b = .next s := by
  have hstep : step { s with rndIn := b :: s.rndIn } = .next { s with rndIn := b :: s.rndIn } := step_halted _ h
  rw [State.stepRnd, hstep]

theorem load_fault (s : State) (rom : List Byte) : (s.load rom).2.fault = s.fault := by
  rcases load_cases s rom with ⟨-, e⟩ | ⟨hlen, e⟩
  · rw [e]
  · rw [e]
    exact (copyBytes_spec s rom 0x200 hlen).2.1 .fault (by rintro ⟨k, -, hk⟩; exact nomatch hk)

/-- Settles O7: a halted step and a halted STEP(b) are the identity, INIT clears the latch, and the other operations do
not write it. -/
theorem haltedBlockIsLeftOnlyByInit : Obligations.HaltedBlockIsLeftOnlyByInit := by
  intro s hk
  have hs : s.halted = true := s.halted_iff.mpr hk
  refine ⟨step_halted s hs, fun b => ?stepByte, fun op t r hop h => ?others, fun t r h => ?init⟩
  case stepByte => simp only [operate, operateLive, stepRnd_halted hs]
  case others =>
    have ht := operate_live_next h
    cases op with
    | init => exact absurd rfl hop
    | load rom => exact ht ▸ load_fault s rom
    | step b => rw [Host.Outcome.next.inj ((stepRnd_halted hs b).symm.trans ht)]
    | setKey | consumeRedraw | readFb | readSound | readState => exact ht ▸ rfl
  case init => exact operate_live_next h ▸ rfl

/-! ### The step that completes -/

/-- No instruction writes the random input or the parameters. -/
theorem Ends.keeps_inputs (e : Ends i s t) :
    t.rndIn = s.rndIn ∧ t.rndDraw = s.rndDraw ∧ t.params = s.params := by
  cases e with
  | completes _ kept => exact kept
  | faults r entry => exact entry ▸ ⟨rfl, rfl, rfl⟩

theorem tickDown_eq (b : Byte) : tickDown b = BitVec.ofNat 8 (b.toNat - 1) :=
  BitVec.eq_of_toNat_eq (by rw [tickDown_toNat, BitVec.toNat_ofNat]; omega)

theorem rangeInReach_two_iff (s : State) (a : Nat) :
    s.rangeInReach a 2 ↔ a + 1 ≤ 0xFFF ∨ s.params.oob = .wrap := by
  simp [State.rangeInReach, State.inReach]

/-- Settles O6: the fetch gives the word of the two bytes, and `endStep` ticks unless a fault is latched. -/
theorem stepRunsDecodedInstruction : Obligations.StepRunsDecodedInstruction := by
  intro s t w i hk hreach hw hi hexec
  subst hi
  have hs : s.halted = false := s.not_halted_iff.mpr hk
  have hfetch : s.fetch = .ok w := (s.fetch_ok_iff w).mpr
    ⟨(rangeInReach_two_iff s _).mpr hreach.symm, BitVec.eq_of_toNat_eq (by rw [hw, wordOfBytes_toNat])⟩
  refine ⟨fun ht => ?completed, fun ht => ?faulted⟩
  case completed =>
    obtain ⟨hin, hdraw, -⟩ := (exec_ends _ _ _ hexec).keeps_inputs
    rw [step_of_fetch_of_exec hs hfetch hexec (t.not_halted_iff.mpr ht), State.nextRnd, State.tick, tickDown_eq,
      tickDown_eq, hin, hdraw]
  case faulted =>
    rw [step_of_fetch_ok hs hfetch, hexec, finishStep, t.endStep_halted (t.halted_iff.mpr ht)]

/-- What an instruction leaves in DT (R28, R184). -/
theorem exec_dt_toNat :
    exec i s = .next t → t.dt.toNat = match i with | .ldDtV x => (s.reg x).toNat | _ => s.dt.toNat := by
  intro h
  cases i with
  | ldDtV x => obtain rfl := Host.Outcome.next.inj h; rfl
  | _ => exact congrArg BitVec.toNat (exec_changes h .dt id)

/-- What an instruction leaves in ST (R29, R185). -/
theorem exec_st_toNat :
    exec i s = .next t → t.st.toNat = match i with | .ldStV x => (s.reg x).toNat | _ => s.st.toNat := by
  intro h
  cases i with
  | ldStV x => obtain rfl := Host.Outcome.next.inj h; rfl
  | _ => exact congrArg BitVec.toNat (exec_changes h .st id)

/-- Settles O20: a step that leaves no fault latched has completed, so the tick counts down what the instruction
left. -/
theorem timersTickOncePerCompletedStep : Obligations.TimersTickOncePerCompletedStep := by
  intro s t w hk hfetch hstep ht
  cases step_ends hstep with
  | halted latched => exact absurd hk (s.halted_iff.mp latched)
  | fetchFault _ _ entry => subst entry; exact nomatch ht
  | execFault _ _ _ _ latched => exact absurd ht (t.halted_iff.mp latched)
  | completes _ w' fetched u executed _ ticked =>
    obtain rfl := Except.ok.inj (hfetch.symm.trans fetched)
    subst ticked
    exact ⟨(tickDown_toNat u.dt).trans (congrArg (· - 1) (exec_dt_toNat executed)),
      (tickDown_toNat u.st).trans (congrArg (· - 1) (exec_st_toNat executed))⟩

/-! ### A jump to itself -/

theorem programHalted_iff (s : State) :
    s.programHalted = true ↔
      s.halted = false ∧ ∃ w nnn, s.fetch = .ok w ∧ decodeWord w = .jp nnn ∧ addrImm nnn = s.pc := by
  rw [State.programHalted, Bool.and_eq_true, Bool.not_eq_true', State.nextInstr]
  refine and_congr_right fun _ => ?_
  cases s.fetch with
  | error r => simp
  | ok w =>
    cases hd : decodeWord w with
    | jp nnn => simp [hd]
    | _ => simp [hd]

/-- A step at a jump to itself: the timers tick, the random byte is used up, and that is all (R121, R106). -/
theorem step_of_programHalted (h : s.programHalted = true) : step s = .next s.tick.nextRnd := by
  obtain ⟨hs, w, nnn, hfetch, hdec, hpc⟩ := (programHalted_iff s).mp h
  have hself : s.jumpTo (addrImm nnn) = s := by rw [hpc]; rfl
  exact step_of_fetch_of_exec hs hfetch (by rw [hdec, exec_jp, hself]) hs

/-- What program halt reads is no timer and no random input. -/
theorem programHalted_tick_nextRnd (h : s.programHalted = true) : s.tick.nextRnd.programHalted = true := h

theorem changes_tick_nextRnd (s : State) :
    ChangesOnly (fun p => p = .dt ∨ p = .st ∨ p = .rndInput) s s.tick.nextRnd := by
  intro p hp
  cases p with
  | dt => exact absurd (.inl rfl) hp
  | st => exact absurd (.inr (.inl rfl)) hp
  | rndInput => exact absurd (.inr (.inr rfl)) hp
  | _ => rfl

theorem run_succ_of_step (M : Host.Core) {s t : M.State} (h : M.step s = .next t) (k : Nat) :
    M.run (k + 1) s = M.run k t := by
  rw [Host.Core.run, h]

/-- Settles O21, by induction on the number of steps: each step is the tick of `step_of_programHalted`, which leaves the
block at its jump. -/
theorem selfJumpHaltsForever : Obligations.SelfJumpHaltsForever := by
  intro s k h
  induction k generalizing s with
  | zero => exact ⟨s, rfl, h, rfl, rfl, ChangesOnly.refl s _⟩
  | succ k ih =>
    obtain ⟨t, hrun, ht, hdt, hst, hframe⟩ := ih s.tick.nextRnd (programHalted_tick_nextRnd h)
    refine ⟨t, (run_succ_of_step Sys2Proof.core (step_of_programHalted h) k).trans hrun, ht, ?dt, ?st,
      (changes_tick_nextRnd s).trans hframe⟩
    case dt => rw [hdt, State.nextRnd_dt, State.tick_dt, tickDown_toNat, Nat.sub_sub, Nat.add_comm]
    case st => rw [hst, State.nextRnd_st, State.tick_st, tickDown_toNat, Nat.sub_sub, Nat.add_comm]

/-! ### The supplied random byte -/

/-- The pseudocode of R152. -/
theorem exec_rnd (x : Reg) (nn : Byte) (s : State) :
    exec (.rnd x nn) s = .next (s.setReg x (s.rnd &&& nn)).advance := rfl

theorem decodeWord_rnd_fixed_first (x : Reg) (nn : Byte) :
    decodeWord (BitVec.ofNat 16 (0xC000 + x.val * 0x100 + nn.toNat)) = .rnd x nn :=
  decodeWord_encode (.rnd x nn) rfl

/-- Settles O31: in the step of STEP(b) the random byte is `b`, and the tick after the Cxnn moves neither Vx nor PC. -/
theorem suppliedByteReachesCxnn : Obligations.SuppliedByteReachesCxnn := by
  intro s b x nn hk hfetch
  let s₁ : State := { s with rndIn := b :: s.rndIn }
  let u : State := (s₁.setReg x (b &&& nn)).advance
  have hs : s.halted = false := s.not_halted_iff.mpr hk
  have hstep : step s₁ = .next u.tick.nextRnd :=
    step_of_fetch_of_exec (s := s₁) hs hfetch (by rw [decodeWord_rnd_fixed_first, exec_rnd]; rfl) hs
  refine ⟨{ u.tick.nextRnd with rndIn := s.rndIn }, ?next, s₁.setReg_advance_reg x _, s₁.setReg_advance_pc_toNat x _⟩
  case next => simp only [operate, operateLive, State.stepRnd, s₁, hstep]

end Sys2Proof.Machine
end

section
/-! What no instruction but Cxnn, and none but the listed two-write cases, lets through: the random input
(40_step_engine.md R109) and `P_FLAG_ORDER` (43_alu.md R154). -/

namespace Sys2Proof.Machine

variable {s t : State} {i : Instr}

/-- The state with another random input and another `P_FLAG_ORDER`. -/
def State.withHidden (s : State) (supplied : List Byte) (drawn : Nat) (order : FlagOrder) : State :=
  { s with rndIn := supplied, rndDraw := drawn, params := { s.params with flagOrder := order } }

section hidden

variable (supplied : List Byte) (drawn : Nat) (order : FlagOrder)

/-! ### The shared operations do not see the hidden parts -/

@[simp] theorem State.withHidden_reg (s : State) (x : Reg) :
    (s.withHidden supplied drawn order).reg x = s.reg x := rfl

@[simp] theorem State.withHidden_dataAddr (s : State) (k : Nat) :
    (s.withHidden supplied drawn order).dataAddr k = s.dataAddr k := rfl

@[simp] theorem State.withHidden_effAddr (s : State) (k : FaultKind) (a : Nat) :
    (s.withHidden supplied drawn order).effAddr k a = s.effAddr k a := rfl

@[simp] theorem State.withHidden_memRead (s : State) (k : FaultKind) (a : Nat) :
    (s.withHidden supplied drawn order).memRead k a = s.memRead k a := rfl

@[simp] theorem State.withHidden_keyIndex (s : State) (b : Byte) :
    (s.withHidden supplied drawn order).keyIndex b = s.keyIndex b := rfl

@[simp] theorem State.withHidden_keyAt (s : State) (k : Fin 16) :
    (s.withHidden supplied drawn order).keyAt k = s.keyAt k := rfl

@[simp] theorem State.withHidden_lowestKey (s : State) :
    (s.withHidden supplied drawn order).lowestKey = s.lowestKey := rfl

theorem memWrite_withHidden (s : State) (a : Nat) (b : Byte) :
    (s.withHidden supplied drawn order).memWrite a b =
      (s.memWrite a b).map (·.withHidden supplied drawn order) := by
  rw [State.memWrite, State.memWrite, State.withHidden_effAddr]
  cases s.effAddr .write a <;> rfl

theorem readBytes_withHidden (s : State) (a n : Nat) :
    (s.withHidden supplied drawn order).readBytes a n = s.readBytes a n := by
  induction n generalizing a with
  | zero => rfl
  | succ n ih => rw [State.readBytes, State.readBytes, State.withHidden_memRead, ih]

theorem writeBytes_withHidden (bs : List Byte) (a : Nat) (s : State) :
    State.writeBytes bs a (s.withHidden supplied drawn order) =
      (State.writeBytes bs a s).map (·.withHidden supplied drawn order) := by
  induction bs generalizing a s with
  | nil => rfl
  | cons b bs ih =>
    rw [State.writeBytes, State.writeBytes, memWrite_withHidden]
    cases s.memWrite a b with
    | error r => rfl
    | ok t => exact ih (a + 1) t

theorem setRegs_withHidden (bs : List Byte) (k : Nat) (s : State) :
    State.setRegs bs k (s.withHidden supplied drawn order) =
      (State.setRegs bs k s).withHidden supplied drawn order := by
  induction bs generalizing k s with
  | nil => rfl
  | cons b bs ih => exact ih (k + 1) (s.setReg (Fin.ofNat 16 k) b)

theorem storeAtIndex_withHidden (s : State) (bs : List Byte) :
    (s.withHidden supplied drawn order).storeAtIndex bs =
      (s.storeAtIndex bs).map (·.withHidden supplied drawn order) := by
  rw [State.storeAtIndex, State.storeAtIndex, State.withHidden_dataAddr, writeBytes_withHidden]
  cases State.writeBytes bs (s.dataAddr 0) s <;> rfl

theorem pop_withHidden (s : State) :
    (s.withHidden supplied drawn order).pop = s.pop.map fun p => (p.1, p.2.withHidden supplied drawn order) := by
  by_cases h : s.sp.val = 0 <;> simp [State.pop, State.withHidden, Except.map, h]

theorem push_withHidden (s : State) :
    (s.withHidden supplied drawn order).push = s.push.map (·.withHidden supplied drawn order) := by
  by_cases h : s.sp.val < 16 <;> simp [State.push, State.withHidden, Except.map, h]

/-- The pseudocode of R181 past its key index. -/
theorem consumeOrSkip_withHidden (s : State) (k : Fin 16) :
    (if (s.withHidden supplied drawn order).keyAt k then
        ((s.withHidden supplied drawn order).setKeyCell k false).advance
      else (s.withHidden supplied drawn order).skipIf true) =
    (if s.keyAt k then (s.setKeyCell k false).advance else s.skipIf true).withHidden supplied drawn order := by
  rw [State.withHidden_keyAt]
  split <;> rfl

/-- An instruction that computes the same from either state ends the same in either. -/
theorem complete_withHidden {e e' : Except OutOfRange State} (he : e' = e.map (·.withHidden supplied drawn order))
    (h : complete s e = .next t) :
    complete (s.withHidden supplied drawn order) e' = .next (t.withHidden supplied drawn order) := by
  subst he
  cases e <;> obtain rfl := Host.Outcome.next.inj h <;> rfl

/-! ### Nor do the instructions -/

/-- The instructions that read no random byte and write VF and Vx in no order of their own. -/
def IsBlind : Instr → Prop
  | .rnd _ _ | .sub _ _ | .subn _ _ | .shr _ _ | .shl _ _ => False
  | _ => True

theorem exec_withHidden (h : exec i s = .next t) (hi : IsBlind i) :
    exec i (s.withHidden supplied drawn order) = .next (t.withHidden supplied drawn order) := by
  cases i with
  | rnd | sub | subn | shr | shl => exact hi.elim
  | ret =>
    refine complete_withHidden supplied drawn order ?_ h
    rw [pop_withHidden]
    cases s.pop <;> rfl
  | call nnn =>
    refine complete_withHidden supplied drawn order ?_ h
    rw [push_withHidden]
    cases s.push <;> rfl
  | skp x =>
    refine complete_withHidden supplied drawn order ?_ h
    rw [State.withHidden_keyIndex, State.withHidden_reg]
    cases s.keyIndex (s.reg x) <;> rfl
  | sknp x =>
    refine complete_withHidden supplied drawn order ?_ h
    rw [State.withHidden_keyIndex, State.withHidden_reg]
    cases s.keyIndex (s.reg x) with
    | error r => rfl
    | ok k => exact congrArg Except.ok (consumeOrSkip_withHidden supplied drawn order s k)
  | ldK x =>
    rcases execLdK_cases s x with ⟨k, hk, e⟩ | ⟨hk, e⟩
    all_goals obtain rfl := Host.Outcome.next.inj (e.symm.trans h)
    · simp only [exec, execLdK, State.withHidden_lowestKey, hk]
      rfl
    · simp only [exec, execLdK, State.withHidden_lowestKey, hk]

  | drw x y n =>
    refine complete_withHidden supplied drawn order ?_ h
    rw [readBytes_withHidden, State.withHidden_dataAddr]
    cases s.readBytes (s.dataAddr 0) n.val <;> rfl
  | ldVMem x =>
    refine complete_withHidden supplied drawn order ?_ h
    rw [readBytes_withHidden, State.withHidden_dataAddr]
    cases s.readBytes (s.dataAddr 0) (x.val + 1) with
    | error r => rfl
    | ok bytes => exact congrArg (fun t => Except.ok t.advance) (setRegs_withHidden supplied drawn order bytes 0 s)
  | ldB | ldMemV => exact complete_withHidden supplied drawn order (storeAtIndex_withHidden ..) h
  | _ => obtain rfl := Host.Outcome.next.inj h; rfl

end hidden

/-- Another random input alone. -/
theorem exec_withRnd (supplied : List Byte) (drawn : Nat) (h : exec i s = .next t) (hi : IsBlind i) :
    exec i { s with rndIn := supplied, rndDraw := drawn } = .next { t with rndIn := supplied, rndDraw := drawn } := by
  have hparams : t.params = s.params := (exec_ends _ _ _ h).keeps_inputs.2.2
  have ht : t.withHidden supplied drawn s.params.flagOrder = { t with rndIn := supplied, rndDraw := drawn } := by
    rw [← hparams]; rfl
  exact ht ▸ exec_withHidden supplied drawn s.params.flagOrder h hi

/-- Another `P_FLAG_ORDER` alone. -/
theorem exec_withOrder (o : FlagOrder) (h : exec i s = .next t) (hi : IsBlind i) :
    exec i { s with params := { s.params with flagOrder := o } } =
      .next { t with params := { t.params with flagOrder := o } } := by
  obtain ⟨hin, hdraw, -⟩ := (exec_ends _ _ _ h).keeps_inputs
  have ht : t.withHidden s.rndIn s.rndDraw o = { t with params := { t.params with flagOrder := o } } := by
    rw [← hin, ← hdraw]; rfl
  exact ht ▸ exec_withHidden s.rndIn s.rndDraw o h hi

/-! ### The two-write operations -/

/-- The order is the same, so the two writes are; the random input is not read. -/
theorem flagAndResult_withRnd (s : State) (supplied : List Byte) (drawn : Nat) (x y : Reg)
    (flag result : Byte → Byte → Byte) :
    State.flagAndResult { s with rndIn := supplied, rndDraw := drawn } x y flag result =
      { s.flagAndResult x y flag result with rndIn := supplied, rndDraw := drawn } := by
  cases h : s.params.flagOrder <;> simp only [State.flagAndResult, h] <;> rfl

/-- Settles O18: the four two-write operations keep their order, and every other instruction is blind. -/
theorem randomByteReachesOnlyCxnn : Obligations.RandomByteReachesOnlyCxnn := by
  intro i s t supplied drawn hi h
  cases i with
  | rnd x nn => exact absurd rfl (hi x nn)
  | sub | subn | shr | shl =>
    obtain rfl := Host.Outcome.next.inj h
    exact congrArg (fun u => Host.Outcome.next u.advance) (flagAndResult_withRnd s supplied drawn _ _ _ _)
  | _ => exact exec_withRnd supplied drawn h trivial

theorem State.setReg_comm (s : State) (x y : Reg) (b c : Byte) (h : x ≠ y) :
    (s.setReg x b).setReg y c = (s.setReg y c).setReg x b := by
  rw [State.setReg, State.setReg, State.setReg, State.setReg]
  simp only [Vector.set_comm _ _ (Fin.val_ne_of_ne h)]

/-- Where Vx is not VF and the result does not read VF, both orders write the same (R154). -/
theorem flagAndResult_of_ne_VF (s : State) (x y : Reg) (flag result : Byte → Byte → Byte) (hx : x ≠ VF)
    (hy : y ≠ VF ∨ ∀ a b b', result a b = result a b') :
    s.flagAndResult x y flag result =
      (s.setReg x (result (s.reg x) (s.reg y))).setReg VF (flag (s.reg x) (s.reg y)) := by
  unfold State.flagAndResult
  split
  · have hres : ∀ b, result (s.reg x) ((s.setReg VF b).reg y) = result (s.reg x) (s.reg y) := fun b =>
      hy.elim (fun hy => by rw [s.setReg_reg_other VF y b hy]) fun hy => hy ..
    simp only [s.setReg_reg_other VF x _ hx, hres]
    exact s.setReg_comm VF x _ _ hx.symm
  · rfl

/-- Another `P_FLAG_ORDER` changes nothing where Vx is not VF and the result does not read VF. -/
theorem flagAndResult_withOrder (s : State) (o : FlagOrder) (x y : Reg) (flag result : Byte → Byte → Byte)
    (hx : x ≠ VF) (hy : y ≠ VF ∨ ∀ a b b', result a b = result a b') :
    State.flagAndResult { s with params := { s.params with flagOrder := o } } x y flag result =
      { s.flagAndResult x y flag result with
        params := { (s.flagAndResult x y flag result).params with flagOrder := o } } := by
  rw [flagAndResult_of_ne_VF _ x y flag result hx hy, flagAndResult_of_ne_VF s x y flag result hx hy]
  rfl

/-- Settles O19: R154's cases left out, the four two-write operations come to the same in both orders, and no other
instruction reads the parameter. -/
theorem flagOrderMattersOnlyInListedCases : Obligations.FlagOrderMattersOnlyInListedCases := by
  intro i s t o hi h
  cases i with
  | rnd => obtain rfl := Host.Outcome.next.inj h; rfl
  | sub x y | subn x y =>
    obtain rfl := Host.Outcome.next.inj h
    exact congrArg (fun u => Host.Outcome.next u.advance) (flagAndResult_withOrder s o x y _ _ hi.1 (.inl hi.2))
  | shr x y | shl x y =>
    obtain rfl := Host.Outcome.next.inj h
    refine congrArg (fun u => Host.Outcome.next u.advance) (flagAndResult_withOrder s o x y _ _ hi (.inr ?_))
    exact fun _ _ _ => rfl
  | _ => exact exec_withOrder o h trivial

end Sys2Proof.Machine
end

section
/-! The host's operations, one by one (60_exceptions.md R220 to R227, 70_reset_and_hazards.md R230 to R233). -/

namespace Sys2Proof.Machine

variable (s : State)

/-! ### INIT -/

theorem init_readByte (p : Params) (a : Nat) : (State.init p).readByte a = Memory.blank p.font a := rfl

theorem blank_font (font : Vector Byte 80) (a : Nat) (h : a < 80) : Memory.blank font a = font[a] := dif_pos h

theorem blank_beyond_font (font : Vector Byte 80) (a : Nat) (h : 80 ≤ a) : Memory.blank font a = 0 :=
  dif_neg (Nat.not_lt.mpr h)

theorem init_pixel (p : Params) (k : Nat) : (State.init p).pixel k = false := BitVec.getLsbD_zero

theorem init_stack (p : Params) (k : Fin 16) : (State.init p).stack[k.val] = 0 := Vector.getElem_replicate k.isLt

/-- Settles O23: each element by the lemma of the array that holds it; memory reads as the blank contents. -/
theorem initGivesResetValues : Obligations.InitGivesResetValues := fun p =>
  ⟨rfl, State.init_reg p, rfl, rfl, init_stack p, rfl, rfl, rfl, init_pixel p, State.init_keyAt p, rfl, rfl, rfl,
    fun a h => (init_readByte p a).trans (blank_font p.font a h),
    fun a h => (init_readByte p a).trans (blank_beyond_font p.font a h)⟩

/-- INIT on a live block is `reinit`. -/
theorem operate_init : operate .init (.live s) = .next (.live s.reinit, .none) := rfl

/-- What `reinit` keeps is what it reads. -/
theorem reinit_reinit : s.reinit.reinit = s.reinit := rfl

/-- Settles O24: `reinit` keeps the parameters and the random input, which is all it reads. -/
theorem initIsIdempotent : Obligations.InitIsIdempotent := fun s =>
  ⟨s.reinit, operate_init s, by rw [operate_init, reinit_reinit], rfl⟩

/-- Settles O25: every operation but INIT has its refusal on a built block. -/
theorem operationsBeforeInitAreRefused : Obligations.OperationsBeforeInitAreRefused := by
  intro p op hop
  cases op with
  | init => exact absurd rfl hop
  | load | step | setKey | consumeRedraw | readFb | readSound | readState => rfl

/-! ### LOAD, SET_KEY and the reads -/

/-- Settles O26: an image that fits is copied below 0x1000, where `copyBytes_spec` says what it leaves; a longer one is
turned away. -/
theorem loadCopiesTheImage : Obligations.LoadCopiesTheImage := by
  intro rom s
  rcases load_cases s rom with ⟨hlong, e⟩ | ⟨hlen, e⟩
  · exact ⟨fun h => absurd h (by omega), fun _ => by simp only [operate, operateLive, e]⟩
  · obtain ⟨-, hframe, hbytes, -⟩ := copyBytes_spec s rom 0x200 hlen
    exact ⟨fun _ => ⟨State.copyBytes rom 0x200 s, by simp only [operate, operateLive, e], hbytes, hframe⟩,
      fun h => absurd h (by omega)⟩

theorem operate_setKey (k : Fin 16) : operate (.setKey k) (.live s) = .next (.live (s.pressKey k), .none) := rfl

theorem pressKey_keyAt (k : Fin 16) : (s.pressKey k).keyAt k = true := by
  rw [State.pressKey, State.setKeyCell_keyAt, if_pos rfl]

theorem setKeyCell_setKeyCell (k : Fin 16) (b c : Bool) : (s.setKeyCell k b).setKeyCell k c = s.setKeyCell k c := by
  simp only [State.setKeyCell, Vector.set_set]

/-- Settles O27: a press writes its cell, and the second press writes it again. -/
theorem setKeyLatchesThePress : Obligations.SetKeyLatchesThePress := fun k s =>
  ⟨s.pressKey k, operate_setKey s k, pressKey_keyAt s k, changes_setKeyCell s k true, by
    rw [operate_setKey, State.pressKey, State.pressKey, setKeyCell_setKeyCell]⟩

theorem sound_iff : s.sound = true ↔ s.st.toNat ≠ 0 := by
  rw [State.sound, bne_iff_ne, ne_eq, ne_eq, ← BitVec.toNat_inj]
  rfl

/-- Settles O30: both reads answer from the state and hand it back. -/
theorem soundAndStateReadsChangeNothing : Obligations.SoundAndStateReadsChangeNothing :=
  fun s => ⟨rfl, s.sound, rfl, sound_iff s⟩

end Sys2Proof.Machine
end

section
/-! Words written with their fixed digits first, and the control transfers (41_control_flow.md R120 to R123, 42_skips.md
R132, R133). -/

namespace Sys2Proof

theorem decodeWord_fixed_first_xyn (o : Nat) (x y : Reg) (f : Nat) {i : Instr} (hi : encode i = layoutXYN o x y f)
    (hwf : i.wf = true) : decodeWord (BitVec.ofNat 16 (o * 0x1000 + f + x.val * 0x100 + y.val * 0x10)) = i := by
  rw [← layoutXYN_eq_fixed_first, ← hi, decodeWord_encode i hwf]

theorem decodeWord_fixed_first_xff (o : Nat) (x : Reg) (f : Nat) {i : Instr} (hi : encode i = layoutXFF o x f)
    (hwf : i.wf = true) : decodeWord (BitVec.ofNat 16 (o * 0x1000 + f + x.val * 0x100)) = i := by
  rw [← layoutXFF_eq_fixed_first, ← hi, decodeWord_encode i hwf]

end Sys2Proof

namespace Sys2Proof.Machine

variable {s : State}

/-! ### Jumps -/

/-- The pseudocode of R123: V0 is the base, and the sum is not masked. -/
theorem exec_jpV0 (nnn : Addr) (s : State) :
    exec (.jpV0 nnn) s = .next (s.jumpTo (wrap16 ((s.reg 0).toNat + nnn.toNat))) := rfl

/-- Settles O33: the sum of a byte and an address stays below 0x10FF, so it fits PC. -/
theorem indexedJumpAddsV0 : Obligations.IndexedJumpAddsV0 := fun nnn =>
  ⟨decodeWord_encode (.jpV0 nnn) rfl, fun s =>
    ⟨_, exec_jpV0 nnn s, wrap16_toNat_of_lt (show (s.reg 0).toNat + nnn.toNat < 0x10000 by omega), changes_jumpTo s _⟩⟩

/-! ### Call and return -/

theorem wrap16_toNat (n : Nat) : (wrap16 n).toNat = n % 65536 := BitVec.toNat_ofNat _ _

/-- What a call with room on the stack leaves (R122). -/
def State.called (s : State) (nnn : Addr) (h : s.sp.val < 16) : State :=
  { s with stack := s.stack.set s.sp.val s.pc h, sp := ⟨s.sp.val + 1, by omega⟩, pc := addrImm nnn }

/-- What a return from a stack that is not empty leaves (R120). -/
def State.returned (s : State) (_ : s.sp.val ≠ 0) : State :=
  { s with sp := ⟨s.sp.val - 1, by omega⟩, pc := wrap16 (s.stack[s.sp.val - 1].toNat + 2) }

theorem exec_call_of_room (nnn : Addr) (h : s.sp.val < 16) : exec (.call nnn) s = .next (s.called nnn h) := by
  rcases execCall_cases s nnn with ⟨_, e⟩ | ⟨hfull, -⟩
  · exact e
  · omega

theorem exec_call_of_full (nnn : Addr) (h : s.sp.val = 16) :
    exec (.call nnn) s = .next (s.takeFault ⟨.stackOverflow, 16⟩) := by
  rcases execCall_cases s nnn with ⟨hroom, -⟩ | ⟨-, e⟩
  · omega
  · exact e

theorem exec_ret_of_entry (h : s.sp.val ≠ 0) : exec .ret s = .next (s.returned h) := by
  rcases execRet_cases s with ⟨hempty, -⟩ | ⟨-, e⟩
  · exact absurd hempty h
  · exact e

theorem exec_ret_of_empty (h : s.sp.val = 0) : exec .ret s = .next (s.takeFault ⟨.stackUnderflow, 0⟩) := by
  rcases execRet_cases s with ⟨-, e⟩ | ⟨hentry, -⟩
  · exact e
  · exact absurd h hentry

theorem called_stack_top (s : State) (nnn : Addr) (h : s.sp.val < 16) : (s.called nnn h).stack[s.sp.val] = s.pc :=
  Vector.getElem_set_self h

/-- Settles O34: the push writes the entry at the old `SP`. -/
theorem callPushesItsAddress : Obligations.CallPushesItsAddress := fun nnn =>
  ⟨decodeWord_encode (.call nnn) rfl, fun s h =>
    ⟨s.called nnn h, exec_call_of_room nnn h, called_stack_top s nnn h, rfl, addrImm_toNat nnn,
      changes_call s h _ _ _⟩⟩

/-- Settles O35: the pop reads the entry below `SP` and leaves it. -/
theorem returnPopsTheCallSite : Obligations.ReturnPopsTheCallSite :=
  ⟨decodeWord_encode .ret rfl, fun s h =>
    ⟨s.returned h, exec_ret_of_entry h, wrap16_toNat _, rfl, changes_ret s _ _⟩⟩

/-- Settles O36: neither stack fault reads `P_OOB`. -/
theorem stackFaultsWhateverTheMode : Obligations.StackFaultsWhateverTheMode :=
  ⟨fun nnn _ h => exec_call_of_full nnn h, fun _ h => exec_ret_of_empty h⟩

/-- A part that is the same after all need not be allowed to change. -/
theorem ChangesOnly.drop {may : StatePart → Prop} {s t : State} {p : StatePart}
    (h : ChangesOnly (fun q => q = p ∨ may q) s t) (hp : p.same s t) : ChangesOnly may s t := by
  intro q hq
  by_cases e : q = p
  · exact e ▸ hp
  · exact h q fun hm => hm.elim e hq

/-- Settles O22: the return pops the entry the call pushed, wherever `PC` stands by then, and `SP` is back. -/
theorem returnUndoesCall : Obligations.ReturnUndoesCall := by
  intro nnn s p h
  let t : State := (s.called nnn h).jumpTo p
  have ht : t.sp.val ≠ 0 := Nat.succ_ne_zero s.sp.val
  have htop : t.stack[t.sp.val - 1] = s.pc := called_stack_top s nnn h
  have hsp : (t.returned ht).sp = s.sp := Fin.ext (Nat.add_sub_cancel s.sp.val 1)
  refine ⟨s.called nnn h, t.returned ht, exec_call_of_room nnn h, exec_ret_of_entry ht, ?pc, hsp,
    ChangesOnly.drop (p := .sp) ?frame hsp⟩
  case pc => rw [← htop]; exact wrap16_toNat _
  case frame =>
    refine ((changes_call s h _ _ _).mono ?_).trans <| ((changes_jumpTo _ p).mono ?_).trans <|
      (changes_ret t _ _).mono ?_
    · rintro q (rfl | rfl | rfl)
      exacts [.inr (.inl rfl), .inl rfl, .inr (.inr ⟨_, rfl, rfl⟩)]
    · rintro q rfl
      exact .inr (.inl rfl)
    · rintro q (rfl | rfl)
      exacts [.inr (.inl rfl), .inl rfl]

/-! ### Skips on two registers -/

/-- The pseudocode of R132. -/
theorem exec_seReg (x y : Reg) (s : State) :
    exec (.seReg x y) s = .next (s.skipIf (s.reg x == s.reg y)) := rfl

/-- The pseudocode of R133. -/
theorem exec_sneReg (x y : Reg) (s : State) :
    exec (.sneReg x y) s = .next (s.skipIf (s.reg x != s.reg y)) := rfl

/-- Settles O38: each skip's whole effect is `skipIf` of its compare. -/
theorem registerSkipsCompare : Obligations.RegisterSkipsCompare := fun x y =>
  ⟨decodeWord_fixed_first_xyn 0x5 x y 0x0 rfl rfl, decodeWord_fixed_first_xyn 0x9 x y 0x0 rfl rfl, fun s =>
    ⟨⟨_, exec_seReg x y s, changes_skipIf s _, s.skipIf_beq_pc_toNat _ _⟩,
      ⟨_, exec_sneReg x y s, changes_skipIf s _, s.skipIf_bne_pc_toNat _ _⟩⟩⟩

end Sys2Proof.Machine
end

section
/-! The register operations that are no loads: logic, the two-write operations under `P_FLAG_ORDER`, and the random byte
(43_alu.md R143 to R153). -/

namespace Sys2Proof.Machine

variable {s : State}

/-! ### Logic -/

/-- The pseudocode of R143. -/
theorem exec_orReg (x y : Reg) (s : State) :
    exec (.orReg x y) s = .next (s.setReg x (s.reg x ||| s.reg y)).advance := rfl

/-- The pseudocode of R144. -/
theorem exec_andReg (x y : Reg) (s : State) :
    exec (.andReg x y) s = .next (s.setReg x (s.reg x &&& s.reg y)).advance := rfl

/-- The pseudocode of R145. -/
theorem exec_xorReg (x y : Reg) (s : State) :
    exec (.xorReg x y) s = .next (s.setReg x (s.reg x ^^^ s.reg y)).advance := rfl

/-- Settles O41: each instruction's whole effect is one register write before `advance`, of a byte made bit by bit. -/
theorem logicWorksBitByBit : Obligations.LogicWorksBitByBit := fun x y =>
  ⟨decodeWord_fixed_first_xyn 0x8 x y 0x1 rfl rfl, decodeWord_fixed_first_xyn 0x8 x y 0x2 rfl rfl,
    decodeWord_fixed_first_xyn 0x8 x y 0x3 rfl rfl, fun s =>
    ⟨⟨_, exec_orReg x y s, s.setReg_advance_pc_toNat x _,
        fun _ => by rw [State.setReg_advance_reg, BitVec.getLsbD_or], changes_setReg_advance s x _⟩,
      ⟨_, exec_andReg x y s, s.setReg_advance_pc_toNat x _,
        fun _ => by rw [State.setReg_advance_reg, BitVec.getLsbD_and], changes_setReg_advance s x _⟩,
      ⟨_, exec_xorReg x y s, s.setReg_advance_pc_toNat x _,
        fun _ => by rw [State.setReg_advance_reg, BitVec.getLsbD_xor], changes_setReg_advance s x _⟩⟩⟩

/-! ### The flags and results as numbers -/

theorem borrowFlag_toNat (a b : Byte) : (borrowFlag a b).toNat = if a.toNat < b.toNat then 1 else 0 := by
  by_cases h : a.toNat < b.toNat <;> simp [borrowFlag, flagByte, h]

theorem notBorrowFlag_toNat (a b : Byte) : (notBorrowFlag a b).toNat = if a.toNat > b.toNat then 0 else 1 := by
  by_cases h : a.toNat > b.toNat <;> simp [notBorrowFlag, flagByte, h]

theorem subWrap_toNat (a b : Byte) : (subWrap a b).toNat = (256 + a.toNat - b.toNat) % 256 := wrap8_toNat _

theorem shrFlag_toNat (mode : ShiftFlag) (a : Byte) :
    (shrFlag mode a).toNat = match mode with | .nibble => a.toNat % 16 | .bit => a.toNat % 2 := by
  cases mode with
  | nibble => exact (BitVec.toNat_and a 0x0F).trans (Nat.and_two_pow_sub_one_eq_mod a.toNat 4)
  | bit => exact (BitVec.toNat_and a 0x01).trans (Nat.and_two_pow_sub_one_eq_mod a.toNat 1)

theorem half_toNat (a : Byte) : (a >>> 1).toNat = a.toNat / 2 := by
  rw [BitVec.toNat_ushiftRight, Nat.shiftRight_eq_div_pow]

theorem double_toNat (a : Byte) : (a <<< 1).toNat = 2 * a.toNat % 256 := by
  rw [BitVec.toNat_shiftLeft, Nat.shiftLeft_eq, Nat.mul_comm]

/-- The high nibble in its place, for each of the 256 bytes. -/
theorem and_F0_toNat : ∀ a : Byte, (a &&& 0xF0).toNat = a.toNat / 16 * 16 := by decide

theorem shlFlag_toNat (mode : ShiftFlag) (a : Byte) :
    (shlFlag mode a).toNat = match mode with | .nibble => a.toNat / 16 * 8 | .bit => a.toNat / 128 := by
  cases mode with
  | nibble =>
    calc ((a &&& 0xF0) >>> 1).toNat
      _ = (a &&& 0xF0).toNat / 2 := half_toNat _
      _ = a.toNat / 16 * 16 / 2 := by rw [and_F0_toNat]
      _ = a.toNat / 16 * 8 := by omega
  | bit => exact (BitVec.toNat_ushiftRight a 7).trans (Nat.shiftRight_eq_div_pow a.toNat 7)

/-! ### The two writes -/

/-- The value of a register once VF holds the flag, where the order writes the flag first (R153). -/
def State.operand (s : State) (z : Reg) (flag : Byte) : Byte :=
  if z = VF ∧ s.params.flagOrder = .asWritten then flag else s.reg z

theorem operand_toNat (s : State) (z : Reg) (flag : Byte) :
    (s.operand z flag).toNat =
      if z = VF ∧ s.params.flagOrder = .asWritten then flag.toNat else (s.reg z).toNat :=
  apply_ite BitVec.toNat _ _ _

variable (x y : Reg) (flag result : Byte → Byte → Byte)

/-- Vx keeps the result unless VF, written last, is Vx. -/
theorem flagAndResult_reg_x (s : State) (h : x ≠ VF ∨ s.params.flagOrder = .asWritten) :
    (s.flagAndResult x y flag result).reg x =
      result (s.operand x (flag (s.reg x) (s.reg y))) (s.operand y (flag (s.reg x) (s.reg y))) := by
  cases ho : s.params.flagOrder with
  | asWritten => simp only [flagAndResult_asWritten s x y flag result ho, State.operand, ho, and_true, if_true]
  | flagLast =>
    have hx : x ≠ VF := h.resolve_right (by simp [ho])
    simp only [flagAndResult_flagLast s x y flag result ho, State.operand, ho, reduceCtorEq, and_false, if_false,
      if_neg hx, if_true]

/-- VF keeps the flag unless Vx, written last, is VF. -/
theorem flagAndResult_reg_VF (s : State) (h : x ≠ VF ∨ s.params.flagOrder = .flagLast) :
    (s.flagAndResult x y flag result).reg VF = flag (s.reg x) (s.reg y) := by
  cases ho : s.params.flagOrder with
  | asWritten =>
    have hx : x ≠ VF := h.resolve_right (by simp [ho])
    rw [flagAndResult_asWritten s x y flag result ho, if_neg hx.symm, if_pos rfl]
  | flagLast => rw [flagAndResult_flagLast s x y flag result ho, if_pos rfl]

/-- The whole effect of a two-write operation, in numbers: `f` and `r` are the flag and the result on numbers. -/
theorem flagAndResult_advance_spec (s : State) {f : Nat} {r : Nat → Nat → Nat} {a b : Nat}
    (hf : (flag (s.reg x) (s.reg y)).toNat = f) (hr : ∀ u v, (result u v).toNat = r u.toNat v.toNat)
    (ha : a = if x = VF ∧ s.params.flagOrder = .asWritten then f else (s.reg x).toNat)
    (hb : b = if y = VF ∧ s.params.flagOrder = .asWritten then f else (s.reg y).toNat) :
    (s.flagAndResult x y flag result).advance.pc.toNat = (s.pc.toNat + 2) % 65536 ∧
    (x ≠ VF ∨ s.params.flagOrder = .asWritten →
      ((s.flagAndResult x y flag result).advance.reg x).toNat = r a b) ∧
    (x ≠ VF ∨ s.params.flagOrder = .flagLast → ((s.flagAndResult x y flag result).advance.reg VF).toNat = f) ∧
    ChangesOnly (fun p => p = .reg x ∨ p = .reg VF ∨ p = .pc) s (s.flagAndResult x y flag result).advance := by
  subst hf ha hb
  refine ⟨?pc, fun h => ?result, fun h => ?flag, changes_flagAndResult_advance s x y flag result⟩
  case pc => rw [State.advance_pc_toNat, flagAndResult_eq]
  case result => rw [State.advance_reg, flagAndResult_reg_x x y flag result s h, hr, operand_toNat, operand_toNat]
  case flag => rw [State.advance_reg, flagAndResult_reg_VF x y flag result s h]

end Sys2Proof.Machine

namespace Sys2Proof.Machine

/-- Settles O43: the two writes of R147, whose flag is the borrow. -/
theorem subtractWritesBorrowAndDifference : Obligations.SubtractWritesBorrowAndDifference := fun x y =>
  ⟨decodeWord_fixed_first_xyn 0x8 x y 0x5 rfl rfl, fun s _ _ _ hflag ha hb =>
    ⟨_, rfl, flagAndResult_advance_spec x y borrowFlag subWrap s (r := fun a b => (256 + a - b) % 256)
      ((borrowFlag_toNat _ _).trans hflag.symm) subWrap_toNat ha hb⟩⟩

/-- Settles O44: the two writes of R149, whose flag is the inverted borrow and whose difference is reversed. -/
theorem reverseSubtractWritesNotBorrowAndDifference : Obligations.ReverseSubtractWritesNotBorrowAndDifference :=
  fun x y => ⟨decodeWord_fixed_first_xyn 0x8 x y 0x7 rfl rfl, fun s _ _ _ hflag ha hb =>
    ⟨_, rfl, flagAndResult_advance_spec x y notBorrowFlag (fun a b => subWrap b a) s
      (r := fun a b => (256 + b - a) % 256) ((notBorrowFlag_toNat _ _).trans hflag.symm)
      (fun u v => subWrap_toNat v u) ha hb⟩⟩

/-- Settles O45: the two writes of R148, neither of which reads Vy. -/
theorem shiftRightWritesFlagAndHalf : Obligations.ShiftRightWritesFlagAndHalf := fun x y =>
  ⟨decodeWord_fixed_first_xyn 0x8 x y 0x6 rfl rfl, fun s _ _ hflag ha =>
    ⟨_, rfl, flagAndResult_advance_spec x y (fun a _ => shrFlag s.params.shiftFlag a) (fun a _ => a >>> 1) s
      (r := fun a _ => a / 2) ((shrFlag_toNat _ _).trans hflag.symm) (fun u _ => half_toNat u) ha rfl⟩⟩

/-- Settles O46: the two writes of R150, neither of which reads Vy. -/
theorem shiftLeftWritesFlagAndDouble : Obligations.ShiftLeftWritesFlagAndDouble := fun x y =>
  ⟨decodeWord_fixed_first_xyn 0x8 x y 0xE rfl rfl, fun s _ _ hflag ha =>
    ⟨_, rfl, flagAndResult_advance_spec x y (fun a _ => shlFlag s.params.shiftFlag a) (fun a _ => a <<< 1) s
      (r := fun a _ => 2 * a % 256) ((shlFlag_toNat _ _).trans hflag.symm) (fun u _ => double_toNat u) ha rfl⟩⟩

/-! ### The random byte -/

theorem rnd_of_supplied {s : State} {b : Byte} {rest : List Byte} (h : s.rndIn = b :: rest) : s.rnd = b := by
  simp only [State.rnd, h]

theorem rnd_of_none {s : State} (h : s.rndIn = []) : s.rnd = Config.freeRnd s.rndDraw := by
  simp only [State.rnd, h]

/-- Settles O47: Cxnn writes Vx alone, and its byte is the head of the supplied ones or the free one. -/
theorem randomIsMasked : Obligations.RandomIsMasked := fun x nn =>
  ⟨decodeWord_rnd_fixed_first x nn, fun s =>
    ⟨_, exec_rnd x nn s, s.setReg_advance_pc_toNat x _,
      fun _ _ h => by rw [State.setReg_advance_reg, rnd_of_supplied h],
      fun h => by rw [State.setReg_advance_reg, rnd_of_none h], changes_setReg_advance s x _⟩⟩

/-! ### The timers -/

/-- The pseudocode of R184. -/
theorem exec_ldDtV (x : Reg) (s : State) : exec (.ldDtV x) s = .next { s with dt := s.reg x }.advance := rfl

/-- The pseudocode of R185. -/
theorem exec_ldStV (x : Reg) (s : State) : exec (.ldStV x) s = .next { s with st := s.reg x }.advance := rfl

/-- Settles O60: each instruction writes its timer before `advance`. -/
theorem timersAreWritten : Obligations.TimersAreWritten := fun x =>
  ⟨decodeWord_fixed_first_xff 0xF x 0x15 rfl rfl, decodeWord_fixed_first_xff 0xF x 0x18 rfl rfl, fun s =>
    ⟨⟨_, exec_ldDtV x s, rfl, State.advance_pc_toNat _, changes_dt s _⟩,
      ⟨_, exec_ldStV x s, rfl, State.advance_pc_toNat _, changes_st s _⟩⟩⟩

end Sys2Proof.Machine
end

section
/-! The index register and the memory transfers, where they reach and where they fault (44_index_memory.md R161 to R165,
20_memory.md R50), and the key skips' own range (R51). -/

namespace Sys2Proof.Machine

variable {s : State}

/-- The pseudocode of R161: no flag. -/
theorem exec_addI (x : Reg) (s : State) :
    exec (.addI x) s = .next (s.setIndex (wrap16 (s.i.toNat + (s.reg x).toNat))).advance := rfl

/-- Settles O49: one write of the index register before `advance`; no register is written. -/
theorem indexAddWrapsAndSetsNoFlag : Obligations.IndexAddWrapsAndSetsNoFlag := fun x =>
  ⟨decodeWord_fixed_first_xff 0xF x 0x1E rfl rfl, fun s =>
    ⟨_, exec_addI x s, by rw [State.setIndex_advance_i, wrap16_toNat], s.setIndex_advance_pc_toNat _,
      changes_setIndex_advance s _⟩⟩

/-! ### Reach, in the form of the statements -/

/-- A run whose last address exists, or any run that is masked. -/
theorem rangeInReach_of_last {a n : Nat} (h : s.params.oob = .wrap ∨ a + n ≤ 0xFFF) : s.rangeInReach a (n + 1) :=
  .inr h.symm

theorem not_rangeInReach_of_last {a n : Nat} (hoob : s.params.oob = .fault) (h : 0xFFF < a + n) :
    ¬ s.rangeInReach a (n + 1) :=
  (s.not_rangeInReach_iff a (n + 1)).mpr ⟨n.succ_pos, by omega, hoob⟩

/-! ### Stores -/

/-- A store that reaches, whole. -/
theorem storeAtIndex_of_reach {bs : List Byte} (h : s.rangeInReach s.i.toNat bs.length) (hlen : bs.length ≤ 0x1000) :
    ∃ t : State, complete s (s.storeAtIndex bs) = .next t ∧ t.pc.toNat = (s.pc.toNat + 2) % 65536 ∧
      (∀ k (hk : k < bs.length), t.readByte ((s.i.toNat + k) % 0x1000) = bs[k]) ∧
      ChangesOnly (fun p => p = .pc ∨ ∃ k < bs.length, p = .byte ((s.i.toNat + k) % 0x1000)) s t := by
  rcases storeAtIndex_cases s bs with ⟨-, t, ht, e⟩ | ⟨hout, -⟩
  · obtain ⟨hmem, -, hbytes, -⟩ := s.writeBytes_ok bs _ t ht
    exact ⟨t.advance, e, by rw [State.advance_pc_toNat, hmem], hbytes hlen, changes_writeBytes_advance ht⟩
  · exact absurd h hout

theorem storeAtIndex_of_out {bs : List Byte} (h : ¬ s.rangeInReach s.i.toNat bs.length) :
    complete s (s.storeAtIndex bs) = .next (s.takeFault ⟨.write, max s.i.toNat 0x1000⟩) := by
  rcases storeAtIndex_cases s bs with ⟨hreach, -⟩ | ⟨-, e⟩
  · exact absurd hreach h
  · exact e

theorem wrap8_toNat_of_lt {n : Nat} (h : n < 256) : (wrap8 n).toNat = n := by
  rw [wrap8_toNat, Nat.mod_eq_of_lt h]

/-- Settles O50: the store of R163 is a store of three bytes, each a digit below 256. -/
theorem bcdStoresThreeDigits : Obligations.BcdStoresThreeDigits := by
  intro x
  refine ⟨decodeWord_fixed_first_xff 0xF x 0x33 rfl rfl, fun s hreach => ?_⟩
  obtain ⟨t, hexec, hpc, hbytes, hframe⟩ :=
    storeAtIndex_of_reach (bs := bcdDigits (s.reg x)) (rangeInReach_of_last hreach) (show 3 ≤ 0x1000 by decide)
  refine ⟨t, hexec, hpc, ?hundreds, ?tens, ?ones, hframe⟩
  case hundreds => exact (congrArg BitVec.toNat (hbytes 0 (show 0 < 3 by decide))).trans (wrap8_toNat_of_lt (by omega))
  case tens => exact (congrArg BitVec.toNat (hbytes 1 (show 1 < 3 by decide))).trans (wrap8_toNat_of_lt (by omega))
  case ones => exact (congrArg BitVec.toNat (hbytes 2 (show 2 < 3 by decide))).trans (wrap8_toNat_of_lt (by omega))

/-- Settles O51: the store of R164 is a store of the registers V0 to Vx. -/
theorem registerDumpStoresV0ToVx : Obligations.RegisterDumpStoresV0ToVx := by
  intro x
  refine ⟨decodeWord_fixed_first_xff 0xF x 0x55 rfl rfl, fun s hreach => ?_⟩
  have hlen : (s.regsUpTo x).length = x.val + 1 := s.regsUpTo_length x
  obtain ⟨t, hexec, hpc, hbytes, hframe⟩ :=
    storeAtIndex_of_reach (bs := s.regsUpTo x) (hlen ▸ rangeInReach_of_last hreach) (by omega)
  refine ⟨t, hexec, hpc, fun k hk => ?bytes, hframe.mono ?frame⟩
  case bytes =>
    have hk' : k.val < (s.regsUpTo x).length := by rw [hlen]; exact Nat.lt_succ_of_le hk
    rw [hbytes k.val hk', s.regsUpTo_getElem x k.val hk' k.isLt]
  case frame =>
    rintro p (rfl | ⟨k, hk, rfl⟩)
    · exact .inl rfl
    · exact .inr ⟨k, by omega, rfl⟩

/-! ### Loads -/

/-- The bytes Fx65 reads. -/
def State.bytesAtIndex (s : State) (n : Nat) : List Byte :=
  (List.range n).map fun k => s.readByte ((s.i.toNat + k) % 0x1000)

theorem bytesAtIndex_length (s : State) (n : Nat) : (s.bytesAtIndex n).length = n := by
  rw [State.bytesAtIndex, List.length_map, List.length_range]

theorem bytesAtIndex_getElem (s : State) (n k : Nat) (hk : k < (s.bytesAtIndex n).length) :
    (s.bytesAtIndex n)[k] = s.readByte ((s.i.toNat + k) % 0x1000) := by
  simp only [State.bytesAtIndex, List.getElem_map, List.getElem_range]

theorem exec_ldVMem_of_reach {x : Reg} (h : s.rangeInReach s.i.toNat (x.val + 1)) :
    exec (.ldVMem x) s = .next (State.setRegs (s.bytesAtIndex (x.val + 1)) 0 s).advance := by
  rcases execLdVMem_cases s x with ⟨-, e⟩ | ⟨hout, -⟩
  · exact e
  · exact absurd h hout

theorem exec_ldVMem_of_out {x : Reg} (h : ¬ s.rangeInReach s.i.toNat (x.val + 1)) :
    exec (.ldVMem x) s = .next (s.takeFault ⟨.read, max s.i.toNat 0x1000⟩) := by
  rcases execLdVMem_cases s x with ⟨hreach, -⟩ | ⟨-, e⟩
  · exact absurd hreach h
  · exact e

/-- Settles O52: the bytes read are loaded from V0 on, the last into Vx. -/
theorem registerLoadReadsV0ToVx : Obligations.RegisterLoadReadsV0ToVx := by
  intro x
  refine ⟨decodeWord_fixed_first_xff 0xF x 0x65 rfl rfl, fun s hreach => ?_⟩
  have hlen : (s.bytesAtIndex (x.val + 1)).length = x.val + 1 := bytesAtIndex_length s _
  obtain ⟨hv, hregs⟩ := s.setRegs_eq (s.bytesAtIndex (x.val + 1)) 0 (by omega)
  refine ⟨_, exec_ldVMem_of_reach (rangeInReach_of_last hreach), ?pc, fun k hk => ?regs,
    changes_setRegs_advance s x _ hlen⟩
  case pc => rw [State.advance_pc_toNat, hv]
  case regs =>
    have hk' : k.val < (s.bytesAtIndex (x.val + 1)).length := by rw [hlen]; exact Nat.lt_succ_of_le hk
    rw [State.advance_reg, hregs k, dif_pos ⟨Nat.zero_le _, by omega⟩, bytesAtIndex_getElem, Nat.sub_zero]

/-! ### Sprites and keys out of range -/

theorem exec_drw_of_out {x y : Reg} {n : Fin 16} (h : ¬ s.rangeInReach s.i.toNat n.val) :
    exec (.drw x y n) s = .next (s.takeFault ⟨.read, max s.i.toNat 0x1000⟩) := by
  rcases execDrw_cases s x y n with ⟨hreach, -⟩ | ⟨-, e⟩
  · exact absurd hreach h
  · exact e

/-- The value is no key and the block does not mask it. -/
theorem not_key_and_fault {b : Byte} (hoob : s.params.oob = .fault) (h : 0xF < b.toNat) :
    ¬ (b.toNat ≤ 0xF ∨ s.params.oob = .wrap) := by
  rw [hoob]
  simp only [reduceCtorEq, or_false]
  omega

theorem exec_skp_of_out {x : Reg} (hoob : s.params.oob = .fault) (h : 0xF < (s.reg x).toNat) :
    exec (.skp x) s = .next (s.takeFault ⟨.key, (s.reg x).toNat⟩) := by
  rcases execSkp_cases s x with ⟨hkey, -⟩ | ⟨-, e⟩
  · exact absurd hkey (not_key_and_fault hoob h)
  · exact e

theorem exec_sknp_of_out {x : Reg} (hoob : s.params.oob = .fault) (h : 0xF < (s.reg x).toNat) :
    exec (.sknp x) s = .next (s.takeFault ⟨.key, (s.reg x).toNat⟩) := by
  rcases execSknp_cases s x with ⟨hkey, -⟩ | ⟨-, e⟩
  · exact absurd hkey (not_key_and_fault hoob h)
  · exact e

/-- Settles O53: each run leaves memory at its last address, so it faults with the first that does not exist; a key
value above F is its own fault value. -/
theorem outOfRangeOperandsFault : Obligations.OutOfRangeOperandsFault := by
  intro s hoob
  refine ⟨fun x h => ?ldB, fun x h => ?ldMemV, fun x h => ?ldVMem, fun x y n hn h => ?drw, fun x h =>
    ⟨exec_skp_of_out hoob h, exec_sknp_of_out hoob h⟩⟩
  case ldB => exact storeAtIndex_of_out (bs := bcdDigits (s.reg x)) (not_rangeInReach_of_last hoob h)
  case ldMemV =>
    exact storeAtIndex_of_out (bs := s.regsUpTo x) (s.regsUpTo_length x ▸ not_rangeInReach_of_last hoob h)
  case ldVMem => exact exec_ldVMem_of_out (not_rangeInReach_of_last hoob h)
  case drw =>
    have hout := not_rangeInReach_of_last hoob h
    rw [Nat.sub_add_cancel (Nat.pos_of_ne_zero hn)] at hout
    exact exec_drw_of_out hout

end Sys2Proof.Machine
end

section
/-! The display and the keypad (45_display.md R170 to R172, 46_keypad_timers.md R180 to R182). -/

namespace Sys2Proof.Machine

variable {s : State}

/-! ### Clear -/

/-- The pseudocode of R170. -/
theorem exec_cls (s : State) : exec .cls s = .next { s with fb := 0 }.advance := rfl

/-- Settles O54: the framebuffer is written whole before `advance`. -/
theorem clearEmptiesTheScreen : Obligations.ClearEmptiesTheScreen :=
  ⟨decodeWord_encode .cls rfl, fun s =>
    ⟨_, exec_cls s, State.advance_pc_toNat _, fun _ => BitVec.getLsbD_zero, changes_cls s 0⟩⟩

/-! ### One draw -/

/-- What a Dxyn that does not fault leaves (R171). -/
def State.afterDraw (s : State) (x y : Reg) (n : Fin 16) : State :=
  { s.setReg VF (flagByte (s.drawn x y n).hit) with fb := (s.drawn x y n).fb, redraw := true }.advance

section draw

variable (s : State) (x y : Reg) (n : Fin 16)

/-- Bit `7 - c` of the byte at `I + r`: the sprite's pixel in row `r` and column `c` (R171). -/
def State.spritePixel (s : State) (r c : Nat) : Bool := (s.readByte ((s.i.toNat + r) % 0x1000)).getLsbD (7 - c)

/-- The cell the sprite's row `r` and column `c` fall on, wrapped on both axes (R172). -/
def State.spriteCell (s : State) (x y : Reg) (r c : Nat) : Nat := pixelIndex (s.reg x).toNat (s.reg y).toNat r c

/-- The sprite of R171 can be read: it has no row, or its last row is in range or masked. -/
theorem rangeInReach_of_lastRow (h : n.val = 0 ∨ s.params.oob = .wrap ∨ s.i.toNat + (n.val - 1) ≤ 0xFFF) :
    s.rangeInReach s.i.toNat n.val := by
  rcases h with h | h | h
  · exact .inl h
  · exact .inr (.inr h)
  · by_cases hn : n.val = 0
    · exact .inl hn
    · exact .inr (.inl (by omega))

theorem exec_drw_of_reach (h : s.rangeInReach s.i.toNat n.val) : exec (.drw x y n) s = .next (s.afterDraw x y n) := by
  rcases execDrw_cases s x y n with ⟨-, e⟩ | ⟨hout, -⟩
  · exact e
  · exact absurd h hout

theorem afterDraw_pc_toNat : (s.afterDraw x y n).pc.toNat = (s.pc.toNat + 2) % 65536 := State.advance_pc_toNat _

/-- The second draw reads the sprite of the first: no byte is written. -/
theorem afterDraw_spritePixel : (s.afterDraw x y n).spritePixel = s.spritePixel := rfl

theorem afterDraw_pixel_cell {r c : Nat} (hr : r < n.val) (hc : c < 8) :
    (s.afterDraw x y n).pixel (s.spriteCell x y r c) =
      (s.pixel (s.spriteCell x y r c) ^^ s.spritePixel r c) :=
  (drawn_cells s x y n).1 r hr c hc

theorem afterDraw_pixel_other {k : Nat} (h : ∀ r < n.val, ∀ c < 8, k ≠ s.spriteCell x y r c) :
    (s.afterDraw x y n).pixel k = s.pixel k :=
  (drawn_cells s x y n).2.1 k h

theorem drawn_hit_iff :
    (s.drawn x y n).hit = true ↔
      ∃ r < n.val, ∃ c < 8, s.spritePixel r c = true ∧ s.pixel (s.spriteCell x y r c) = true :=
  (drawn_cells s x y n).2.2

theorem afterDraw_reg_VF : (s.afterDraw x y n).reg VF = flagByte (s.drawn x y n).hit := s.setReg_reg_same VF _

theorem afterDraw_reg_other {z : Reg} (h : z ≠ VF) : (s.afterDraw x y n).reg z = s.reg z :=
  s.setReg_reg_other VF z _ h

theorem afterDraw_VF_of_collision
    (h : ∃ r < n.val, ∃ c < 8, s.spritePixel r c = true ∧ s.pixel (s.spriteCell x y r c) = true) :
    (s.afterDraw x y n).reg VF = 1 := by
  rw [afterDraw_reg_VF, (drawn_hit_iff s x y n).mpr h]
  rfl

theorem afterDraw_VF_of_no_collision
    (h : ∀ r < n.val, ∀ c < 8, s.spritePixel r c = true → s.pixel (s.spriteCell x y r c) = false) :
    (s.afterDraw x y n).reg VF = 0 := by
  have hno : (s.drawn x y n).hit = false := by
    rw [← Bool.not_eq_true, drawn_hit_iff]
    rintro ⟨r, hr, c, hc, hbit, hset⟩
    exact absurd hset (by rw [h r hr c hc hbit]; decide)
  rw [afterDraw_reg_VF, hno]
  rfl

/-- A draw changes no cell but the sprite's own. -/
theorem changes_afterDraw :
    ChangesOnly (fun p => p = .pc ∨ p = .reg VF ∨ p = .redraw ∨
      ∃ r < n.val, ∃ c < 8, p = .pixel (s.spriteCell x y r c)) s (s.afterDraw x y n) := by
  intro p hp
  by_cases hpixel : ∃ k, p = .pixel k
  · obtain ⟨k, rfl⟩ := hpixel
    exact afterDraw_pixel_other s x y n fun r hr c hc hk => hp (.inr (.inr (.inr ⟨r, hr, c, hc, congrArg _ hk⟩)))
  · refine changes_draw s _ _ true p fun hany => ?_
    rcases hany with h | h | h | h
    · exact hp (.inl h)
    · exact hp (.inr (.inl h))
    · exact hp (.inr (.inr (.inl h)))
    · exact hpixel h

end draw

/-- Settles O55: the facts of one draw, with the sprite's pixels and cells named as the statement names them. -/
theorem drawXorsTheSprite : Obligations.DrawXorsTheSprite := by
  intro x y n
  refine ⟨decodeWord_encode (.drw x y n) rfl, fun s bit cell hreach hbit hcell => ?_⟩
  obtain rfl : bit = s.spritePixel := funext₂ hbit
  obtain rfl : cell = s.spriteCell x y := funext₂ hcell
  exact ⟨s.afterDraw x y n, exec_drw_of_reach s x y n (rangeInReach_of_lastRow s n hreach), afterDraw_pc_toNat s x y n,
    fun _ hr _ hc => afterDraw_pixel_cell s x y n hr hc, afterDraw_VF_of_collision s x y n,
    afterDraw_VF_of_no_collision s x y n, rfl, changes_afterDraw s x y n⟩

/-! ### Two draws -/

section twice

variable (s : State) {x y : Reg} (n : Fin 16) (hx : x ≠ VF) (hy : y ≠ VF)

include hx hy

/-- The second draw falls on the cells of the first: neither coordinate is VF. -/
theorem afterDraw_spriteCell : (s.afterDraw x y n).spriteCell x y = s.spriteCell x y := by
  funext r c
  rw [State.spriteCell, State.spriteCell, afterDraw_reg_other s x y n hx, afterDraw_reg_other s x y n hy]

theorem afterDraw_twice_pixel (k : Nat) : ((s.afterDraw x y n).afterDraw x y n).pixel k = s.pixel k := by
  have hcells := afterDraw_spriteCell s n hx hy
  by_cases h : ∃ r < n.val, ∃ c < 8, k = s.spriteCell x y r c
  · obtain ⟨r, hr, c, hc, rfl⟩ := h
    have hfirst := afterDraw_pixel_cell s x y n hr hc
    have hsecond := afterDraw_pixel_cell (s.afterDraw x y n) x y n hr hc
    rwa [hcells, hfirst, afterDraw_spritePixel, Bool.xor_assoc, Bool.xor_self, Bool.xor_false] at hsecond
  · have hother : ∀ r < n.val, ∀ c < 8, k ≠ s.spriteCell x y r c := fun r hr c hc e => h ⟨r, hr, c, hc, e⟩
    rw [afterDraw_pixel_other (s.afterDraw x y n) x y n (hcells ▸ hother), afterDraw_pixel_other s x y n hother]

/-- A set sprite pixel finds at the second draw the cell turned over by the first. -/
theorem afterDraw_pixel_of_set {r c : Nat} (hr : r < n.val) (hc : c < 8) (hbit : s.spritePixel r c = true) :
    (s.afterDraw x y n).pixel ((s.afterDraw x y n).spriteCell x y r c) = !s.pixel (s.spriteCell x y r c) := by
  rw [afterDraw_spriteCell s n hx hy, afterDraw_pixel_cell s x y n hr hc, hbit, Bool.xor_true]

end twice

/-- Settles O56: the second draw XORs the same pixels onto the same cells, and collides where the first turned a cell
on. -/
theorem drawingTwiceRestoresTheScreen : Obligations.DrawingTwiceRestoresTheScreen := by
  intro x y n s bit cell hx hy hreach hbit hcell
  obtain rfl : bit = s.spritePixel := funext₂ hbit
  obtain rfl : cell = s.spriteCell x y := funext₂ hcell
  have hr : s.rangeInReach s.i.toNat n.val := rangeInReach_of_lastRow s n hreach
  refine ⟨s.afterDraw x y n, (s.afterDraw x y n).afterDraw x y n, exec_drw_of_reach s x y n hr,
    exec_drw_of_reach (s.afterDraw x y n) x y n hr, afterDraw_twice_pixel s n hx hy, ?collides, ?collidesNot⟩
  case collides =>
    rintro ⟨r, hr, c, hc, hset, hclear⟩
    exact afterDraw_VF_of_collision _ x y n
      ⟨r, hr, c, hc, hset, by rw [afterDraw_pixel_of_set s n hx hy hr hc hset, hclear, Bool.not_false]⟩
  case collidesNot =>
    intro hall
    refine afterDraw_VF_of_no_collision _ x y n fun r hr c hc hset => ?_
    rw [afterDraw_pixel_of_set s n hx hy hr hc hset, hall r hr c hc hset, Bool.not_true]

/-! ### The keypad -/

/-- The key of a value that is one, or is masked to one. -/
theorem exec_skp_of_key {x : Reg} {k : Fin 16} (h : s.params.oob = .wrap ∨ (s.reg x).toNat ≤ 0xF)
    (hk : k.val = (s.reg x).toNat % 16) : exec (.skp x) s = .next (s.skipIf (s.keyAt k)) := by
  rcases execSkp_cases s x with ⟨-, e⟩ | ⟨⟨hlow, hoob⟩, -⟩
  · obtain rfl : k = ⟨(s.reg x).toNat % 16, Nat.mod_lt _ (by decide)⟩ := Fin.ext hk
    exact e
  · exact absurd h.symm (not_key_and_fault hoob hlow)

theorem exec_sknp_of_key {x : Reg} {k : Fin 16} (h : s.params.oob = .wrap ∨ (s.reg x).toNat ≤ 0xF)
    (hk : k.val = (s.reg x).toNat % 16) :
    exec (.sknp x) s = .next (if s.keyAt k then (s.setKeyCell k false).advance else s.skipIf true) := by
  rcases execSknp_cases s x with ⟨-, j, hj, e⟩ | ⟨⟨hlow, hoob⟩, -⟩
  · obtain rfl : k = j := Fin.ext (hk.trans hj.symm)
    exact e
  · exact absurd h.symm (not_key_and_fault hoob hlow)

theorem setKeyCell_advance_keyAt (s : State) (k : Fin 16) (b : Bool) : (s.setKeyCell k b).advance.keyAt k = b := by
  rw [State.advance_keyAt, State.setKeyCell_keyAt, if_pos rfl]

/-- ExA1 past its key index: the key is consumed, or the skip is taken (R181). -/
theorem exec_sknp_spec {x : Reg} {k : Fin 16} (h : s.params.oob = .wrap ∨ (s.reg x).toNat ≤ 0xF)
    (hk : k.val = (s.reg x).toNat % 16) :
    ∃ t : State, exec (.sknp x) s = .next t ∧ t.keyAt k = false ∧
      t.pc.toNat = (s.pc.toNat + if s.keyAt k = true then 2 else 4) % 65536 ∧
      ChangesOnly (fun p => p = .pc ∨ p = .key k) s t := by
  refine ⟨_, exec_sknp_of_key h hk, ?_⟩
  by_cases hset : s.keyAt k = true
  · rw [if_pos hset, if_pos hset]
    exact ⟨setKeyCell_advance_keyAt s k false, State.advance_pc_toNat _, changes_setKeyCell_advance s k false⟩
  · rw [if_neg hset, if_neg hset]
    exact ⟨Bool.not_eq_true _ ▸ hset, s.skipIf_pc_toNat true, (changes_skipIf s true).mono fun _ => .inl⟩

/-- Settles O57: Ex9E is `skipIf` of its key, ExA1 consumes the key or skips. -/
theorem keySkipsHoldOrConsume : Obligations.KeySkipsHoldOrConsume := fun x =>
  ⟨decodeWord_fixed_first_xff 0xE x 0x9E rfl rfl, decodeWord_fixed_first_xff 0xE x 0xA1 rfl rfl, fun s _ h hk =>
    ⟨⟨_, exec_skp_of_key h hk, changes_skipIf s _, s.skipIf_pc_toNat _⟩, exec_sknp_spec h hk⟩⟩

theorem exec_ldK_of_lowest {k : Fin 16} (x : Reg) (h : s.lowestKey = some k) :
    exec (.ldK x) s = .next ((s.setReg x (wrap8 k.val)).setKeyCell k false).advance := by
  simp only [exec, execLdK, h]

theorem exec_ldK_of_none (x : Reg) (h : s.lowestKey = none) : exec (.ldK x) s = .next s := by
  simp only [exec, execLdK, h]

/-- Settles O58: the key taken is `lowestKey`, and with none pending the state is the same. -/
theorem keyWaitTakesTheSmallestKey : Obligations.KeyWaitTakesTheSmallestKey := by
  intro x
  refine ⟨decodeWord_fixed_first_xff 0xF x 0x0A rfl rfl, fun s =>
    ⟨fun k hset hleast => ?taken, fun hnone => exec_ldK_of_none x (s.lowestKey_none_iff.mpr hnone)⟩⟩
  case taken =>
    refine ⟨_, exec_ldK_of_lowest x ((s.lowestKey_some_iff k).mpr ⟨hset, hleast⟩), ?vx,
      setKeyCell_advance_keyAt _ k false, State.advance_pc_toNat _, changes_setReg_setKeyCell_advance s x _ k false⟩
    case vx =>
      rw [State.advance_reg, State.setKeyCell_reg, State.setReg_reg_same, wrap8_toNat_of_lt (by omega)]

end Sys2Proof.Machine
end
